-- ==== Sys2Proof/Word.lean ====
section
/-! DEFINITION. The words of CMDENC (spec/00_scope.md R7 to R9): bytes, 32-bit unsigned and signed numbers, handle tokens. -/

namespace Sys2Proof

/-- `u8` (R8). -/
abbrev Byte := BitVec 8

/-- `u32` (R9). -/
abbrev U32 := BitVec 32

/-- `i32`, two's complement (R9); its signed reading is `BitVec.toInt`. -/
abbrev I32 := BitVec 32

/-- A byte sequence; index 0 is the byte sent first (R8). -/
abbrev Bytes := List Byte

/-- The opaque handle token of a successful `Open` (R11). Software never computes with it. -/
abbrev Token := Nat

end Sys2Proof
end

