-- ==== Sys2Proof/Syntax.lean ====
section
/-! DEFINITION. The host's requests as syntax (spec/30_encoding.md R80, R81, R91): one constructor for each row of
spec/opcode_table.json, and the request record that stands on the host request port. -/

namespace Sys2Proof

/-- The ten requests with the operands R80 gives each. -/
inductive Instr where
  /-- INIT, R110. -/
  | init (bus cs : U32) (csGpio : I32) (clk : U32)
  /-- DESTROY, R115. -/
  | destroy
  /-- RDID, R130. -/
  | rdid
  /-- GETCAP, R180. -/
  | getcap
  /-- RDSR, R140. -/
  | rdsr
  /-- WRSR, R142. -/
  | wrsr (value : Byte)
  /-- WREN, R144. -/
  | wren
  /-- WRDI, R145. -/
  | wrdi
  /-- WRITE, R160. `dpres` is DPRES: false for the source's absent buffer. -/
  | write (addr : U32) (dpres : Bool) (data : Bytes)
  /-- READ, R161. -/
  | read (addr : U32) (len : I32)
  deriving DecidableEq, Repr

/-- The pseudo-instruction `WRITE_ENABLE e` (R91). -/
def Instr.writeEnable (e : Bool) : Instr :=
  if e then .wren else .wrdi

/-- A request as it stands on the host request port: the fields of R80. -/
structure HostReq where
  cmd    : Byte
  addr   : U32 := 0
  len    : I32 := 0
  dpres  : Bool := false
  data   : Bytes := []
  value  : Byte := 0
  bus    : U32 := 0
  cs     : U32 := 0
  csGpio : I32 := 0
  clk    : U32 := 0
  deriving DecidableEq, Repr

end Sys2Proof
end

