-- ==== Sys2Proof/WellFormed.lean ====
section
/-! DEFINITION. Well-formed requests (spec/30_encoding.md R80). The widths of R80 are in the operand types; what is left
to check is that an absent buffer (DPRES = 0, "data absent") carries no bytes. -/

namespace Sys2Proof

/-- R80: `DPRES` is 1 if a data buffer is given; with no buffer there are no bytes (log entry 9). -/
def Instr.wellFormed : Instr → Bool
  | .init _ _ _ _ => true
  | .destroy => true
  | .rdid => true
  | .getcap => true
  | .rdsr => true
  | .wrsr _ => true
  | .wren => true
  | .wrdi => true
  | .write _ dpres data => dpres || data.isEmpty
  | .read _ _ => true

end Sys2Proof
end

