-- ==== Sys2Proof/Decode.lean ====
section
/-! DEFINITION. Decoding of host requests, and the encoder (spec/30_encoding.md R80, R81, R86). -/

namespace Sys2Proof

/-- Why a request does not decode. -/
inductive DecodeError where
  /-- R86: the CMD value is none of the ten of R81. -/
  | reservedCmd (cmd : Byte)
  deriving DecidableEq, Repr

/-- R81, R86: the whole CMD byte selects the request; the operands are the fields R80 lists for it and every other field
is ignored. With `DPRES = 0` the buffer is absent, so its bytes are none (log entry 9). -/
def decode (r : HostReq) : Except DecodeError Instr :=
  if r.cmd = 0x10 then .ok (.init r.bus r.cs r.csGpio r.clk)
  else if r.cmd = 0x11 then .ok .destroy
  else if r.cmd = 0x20 then .ok .rdid
  else if r.cmd = 0x21 then .ok .getcap
  else if r.cmd = 0x30 then .ok .rdsr
  else if r.cmd = 0x31 then .ok (.wrsr r.value)
  else if r.cmd = 0x32 then .ok .wren
  else if r.cmd = 0x33 then .ok .wrdi
  else if r.cmd = 0x40 then .ok (.write r.addr r.dpres (if r.dpres then r.data else []))
  else if r.cmd = 0x41 then .ok (.read r.addr r.len)
  else .error (.reservedCmd r.cmd)

/-- The CMD byte of a request, from the table of R81. -/
def Instr.cmd : Instr → Byte
  | .init _ _ _ _ => 0x10
  | .destroy => 0x11
  | .rdid => 0x20
  | .getcap => 0x21
  | .rdsr => 0x30
  | .wrsr _ => 0x31
  | .wren => 0x32
  | .wrdi => 0x33
  | .write _ _ _ => 0x40
  | .read _ _ => 0x41

/-- The request record of an instruction: its CMD byte, its operands in their fields, and 0 in the fields it ignores. -/
def encode (i : Instr) : HostReq :=
  match i with
  | .init bus cs csGpio clk => { cmd := i.cmd, bus := bus, cs := cs, csGpio := csGpio, clk := clk }
  | .destroy => { cmd := i.cmd }
  | .rdid => { cmd := i.cmd }
  | .getcap => { cmd := i.cmd }
  | .rdsr => { cmd := i.cmd }
  | .wrsr value => { cmd := i.cmd, value := value }
  | .wren => { cmd := i.cmd }
  | .wrdi => { cmd := i.cmd }
  | .write addr dpres data => { cmd := i.cmd, addr := addr, dpres := dpres, data := data }
  | .read addr len => { cmd := i.cmd, addr := addr, len := len }

/-- A record carries a request: its CMD byte selects it (R81), and the fields R80 lists for it hold its operands. The bytes of
an absent buffer are not read (log entry 9). -/
def HostReq.carries (r : HostReq) : Instr → Prop
  | .init bus cs csGpio clk => r.cmd = 0x10 ∧ r.bus = bus ∧ r.cs = cs ∧ r.csGpio = csGpio ∧ r.clk = clk
  | .destroy => r.cmd = 0x11
  | .rdid => r.cmd = 0x20
  | .getcap => r.cmd = 0x21
  | .rdsr => r.cmd = 0x30
  | .wrsr value => r.cmd = 0x31 ∧ r.value = value
  | .wren => r.cmd = 0x32
  | .wrdi => r.cmd = 0x33
  | .write addr dpres data => r.cmd = 0x40 ∧ r.addr = addr ∧ r.dpres = dpres ∧ (dpres = true → r.data = data)
  | .read addr len => r.cmd = 0x41 ∧ r.addr = addr ∧ r.len = len

/-- The ten CMD values of R81; every other one is reserved (R86). -/
def assignedCmds : List Byte := [0x10, 0x11, 0x20, 0x21, 0x30, 0x31, 0x32, 0x33, 0x40, 0x41]

/-- The request whose CMD is the low byte of `w`, as spec/opcode_table.json numbers it ("bits[7:0] of the host request"),
and whose operand fields, to which the table gives no bits, are 0 (log entry 9). -/
def HostReq.ofTableWord (nbits w : Nat) : HostReq :=
  { cmd := BitVec.ofNat 8 (w % 2 ^ nbits) }

/-- What the decoder reads from a table word; `none` where it refuses. -/
def decodeTableWord (nbits w : Nat) : Option Instr :=
  match decode (HostReq.ofTableWord nbits w) with
  | .ok i => some i
  | .error _ => none

end Sys2Proof
end

