-- ==== Sys2Proof/Config.lean ====
section
/-! DEFINITION. What one implementation of CMDENC fixes (spec/00_scope.md R6), and the free values: what the spec leaves
to a draw (spec/93_implementation_defined.md I5, I6, I7, I18). -/

namespace Sys2Proof

/-- The open parameters of R6. They are one field of the machine's state that no step changes, so a statement over all
states is a statement over all their values (log entries 1 and 2). -/
structure Config where
  opcWren  : Byte
  opcWrdi  : Byte
  opcRdsr  : Byte
  opcWrsr  : Byte
  opcRead  : Byte
  opcWrite : Byte
  opcRdid  : Byte
  /-- `FRAME_CAP`; `none` is the spec's ∞. -/
  frameCap : Option Nat
  /-- `CLK_MAX_HZ`. -/
  clkMaxHz : Nat
  /-- `CAP_BITS`. -/
  capBits  : Nat
  deriving DecidableEq, Repr

/-- The defaults of R6. PRESUMED: the op-code bytes are the FM25 family's, which the spec itself marks as general
knowledge (log entry 1); the other three are the spec's own defaults (log entry 2). -/
def Config.default : Config where
  opcWren  := 0x06
  opcWrdi  := 0x04
  opcRdsr  := 0x05
  opcWrsr  := 0x01
  opcRead  := 0x03
  opcWrite := 0x02
  opcRdid  := 0x9F
  frameCap := none
  clkMaxHz := 10000000
  capBits  := 64

/-- The seven op-code parameters. -/
def Config.opcodes (p : Config) : List Byte :=
  [p.opcWren, p.opcWrdi, p.opcRdsr, p.opcWrsr, p.opcRead, p.opcWrite, p.opcRdid]

/-- `n ≤ FRAME_CAP` (R204). -/
def Config.fits (p : Config) (n : Nat) : Bool :=
  match p.frameCap with
  | none => true
  | some c => decide (n ≤ c)

/-- What R6 requires of the parameters: distinct op-codes, and `FRAME_CAP` at least 5. -/
def Config.wf (p : Config) : Bool :=
  decide p.opcodes.Nodup && p.fits 5

/-- `FILL` (R6, decided by D8). -/
def fillByte : Byte := 0x00

/-- `DENSITY_LIMIT` (R6, R133). -/
def densityLimit : Nat := 3

/-! ### Free values. Nothing in Lean can evaluate them, so what is proved holds whatever they are (log entries 4, 7). -/

/-- How the transport meets a call: no answer yet, a failure, a success. -/
inductive Verdict where
  | silent
  | err
  | ok
  deriving DecidableEq, Repr, Inhabited

/-- Whether and how the n-th drawn answer comes (I6, I7). -/
opaque Config.drawVerdict : Nat → Verdict

/-- The code of the n-th drawn answer: a failure code, a byte count or a result code (I6). -/
opaque Config.drawCode : Nat → I32

/-- The handle token of the n-th drawn answer (I6, R33 (c)). -/
opaque Config.drawToken : Nat → Token

/-- Reply byte i of the n-th drawn answer (I6, I8, I18). -/
opaque Config.drawByte : Nat → Nat → Byte

/-- For how many steps the `Close` whose answer is the n-th drawn one waits: a free number, and a finite one, since `Close`
always completes (R33 (b)). -/
opaque Config.drawDelay : Nat → Nat

/-- The n-th capacity that does not fit in `CAP_BITS` bits (I5), before it is cut to that width. -/
opaque Config.drawCapacity : Nat → Nat

end Sys2Proof
end

