-- ==== Sys2Proof/Machine/State.lean ====
section
/-! DEFINITION. The state of CMDENC (spec/10_state.md R20 to R39), its three ports, and the environment behind the
transport port (the transport of R31 to R33 and the reference device of spec/20_memory.md R62). Plain data only. -/

namespace Sys2Proof.Machine

/-! ### Registers -/

/-- `LIFE` (R21). -/
inductive Life where
  | unbound
  | ready
  deriving DecidableEq, Repr

/-- The value codes of R21. -/
def Life.code : Life → Nat
  | .unbound => 0
  | .ready => 1

/-- `AFW` (R22): UNSET, or a frame header of 3 or 4 bytes. -/
inductive Afw where
  | unset
  | w3
  | w4
  deriving DecidableEq, Repr

/-- The value codes of R22, which for a set width are its number of bytes. -/
def Afw.code : Afw → Nat
  | .unset => 0
  | .w3 => 3
  | .w4 => 4

/-- `CFG.ORDER` (R26). -/
inductive BitOrder where
  | msbFirst
  | lsbFirst
  deriving DecidableEq, Repr

/-- `CFG` (R26): the bus configuration handed to `Open`. The defaults are its reset value (R39). -/
structure BusCfg where
  bus    : U32 := 0
  cs     : U32 := 0
  csGpio : I32 := 0
  clkHz  : U32 := 0
  bits   : Nat := 8
  mode   : Nat := 0
  order  : BitOrder := .msbFirst
  deriving DecidableEq, Repr

/-- `SEQ` (R27): idle, or at step k of a request. -/
inductive Seq where
  | idle
  | busy (r : Instr) (k : Nat)
  deriving DecidableEq, Repr

/-! ### Ports -/

/-- The error codes of R200. -/
inductive Err where
  | ok
  | invalidHandle
  | invalidArgument
  | allocationFailure
  | transferError
  | initializationFailure
  | illegalRequest
  deriving DecidableEq, Repr

/-- The `ERR` byte of R200. -/
def Err.code : Err → Byte
  | .ok => 0
  | .invalidHandle => 1
  | .invalidArgument => 2
  | .allocationFailure => 3
  | .transferError => 4
  | .initializationFailure => 5
  | .illegalRequest => 6

/-- One response (R35). Fields a request does not set are 0 (R12). -/
structure Response where
  err   : Err := .ok
  xcode : I32 := 0
  res   : I32 := 0
  sr    : Byte := 0
  idv   : U32 := 0
  /-- `CAPV`, a number of `CAP_BITS` bits. -/
  capv  : Nat := 0
  data  : Bytes := []
  deriving DecidableEq, Repr

/-- The four transport calls (R11) with what CMDENC hands over. -/
inductive Call where
  | openBus (cfg : BusCfg)
  | xfer (h : Token) (tx : Bytes)
  | xferFull (h : Token) (tx : Bytes)
  | close (h : Token)
  deriving DecidableEq, Repr

/-- The command frame of a call; `Open` and `Close` have none (`F_NONE`, spec/30_encoding.md R84). -/
def Call.frame : Call → Option Bytes
  | .openBus _ => none
  | .xfer _ tx => some tx
  | .xferFull _ tx => some tx
  | .close _ => none

/-- How a call was answered (R11). -/
inductive Reply where
  | opened (h : Token)
  | count (n : I32)
  | full (c : I32) (rx : Bytes)
  | failed (c : I32)
  | closed
  deriving DecidableEq, Repr

/-- One line of a transport trace: a call with its answer. -/
structure Event where
  call  : Call
  reply : Reply
  deriving DecidableEq, Repr

/-! ### The environment behind the transport port -/

/-- What the transport has for the call that stands on its port: nothing yet, a failure code, a success. -/
inductive Answer (α : Type) where
  | silent
  | err (c : I32)
  | ok (a : α)
  deriving DecidableEq, Repr

/-- What the transport has for the `Close` that stands on its port. It has no result (R11). -/
inductive Closing where
  /-- It is not done yet (R27). -/
  | waits
  | done
  /-- It never will be: the transport breaks its duty (R33 (b), I20). -/
  | never
  deriving DecidableEq, Repr

/-- What a written-out success carries. Each call uses the part R11 gives it: `Open` the token, `Xfer` the code as its byte
count, `XferFull` the code and the reply bytes. -/
structure Success where
  token : Token := 1
  code  : I32 := 0
  rx    : Bytes := []
  deriving DecidableEq, Repr

/-- What is injected into one call of the reference transport (spec/20_memory.md R70; log entry 15). `Close` has no result to
fail with, so it can only be made to wait. -/
inductive Inject where
  /-- No injection. -/
  | pass
  /-- The call answers `Err(c)` and the device sees the first `seen` bytes of the frame; R70 injects with `seen = 0`,
  other values are the partial frames of spec/60_exceptions.md R207. -/
  | fail (c : I32) (seen : Nat)
  /-- The call is not answered at this step. -/
  | hang
  deriving DecidableEq, Repr

/-- Which transport answers (log entry 4). -/
inductive Link where
  /-- Free draws: any transport and any chip that keep the duties of R33. -/
  | draws
  /-- Answers written out in advance, one for each call; after the last of them no call is answered, so that a `Close` then has
  no meaning (I20). -/
  | script (answers : List (Answer Success))
  /-- The reference transport and device (spec/20_memory.md R62 to R70); calls past the list's end have no injection. -/
  | reference (inject : List Inject)
  deriving DecidableEq, Repr

/-- Bytes by address, in the canonical form of Machine/Memory.lean. -/
abbrev Memory := List Host.Cell

/-- `IDB[0..3]` (R62). -/
structure IdBytes where
  b0 : Byte := 0
  b1 : Byte := 0
  b2 : Byte := 0
  b3 : Byte := 0
  deriving DecidableEq, Repr

/-- The reference device (R62): `M`, `SRW` as its three bits 7, 3 and 2, `WEL` and `IDB`. -/
structure Chip where
  mem  : Memory := []
  wpen : Bool := false
  bp1  : Bool := false
  bp0  : Bool := false
  wel  : Bool := false
  idb  : IdBytes := {}
  deriving DecidableEq, Repr

/-- The transport and what it reaches. -/
structure Env where
  link  : Link := .draws
  chip  : Chip := {}
  /-- The model's own: how many answers have been drawn; the free values are applied to it. -/
  drawn : Nat := 0
  /-- The model's own: with free draws, for how many more steps the `Close` on the port waits (log entry 4). -/
  closeLeft : Option Nat := none
  deriving DecidableEq, Repr

/-! ### The machine -/

/-- CMDENC with its ports, its parameters and its environment. -/
structure State where
  /-- The parameters of spec/00_scope.md R6; no step changes them. -/
  par   : Config
  /-- `LIFE`, R21. -/
  life  : Life
  /-- `AFW`, R22. -/
  afw   : Afw
  /-- `ID`, R23. -/
  id    : U32
  /-- `HND`, R25. -/
  hnd   : Option Token
  /-- `CFG`, R26. -/
  cfg   : BusCfg
  /-- `SEQ`, R27. -/
  seq   : Seq
  /-- The model's own name for the local `c` of INIT's pseudocode (spec/40_lifecycle.md R110): the code of the failed identifier
  read, held while the `Close` of R113 (b) is on the port, and else 0 (log entry 20). -/
  failCode : I32
  /-- The call on the transport port that waits for its answer, with the frame buffer `tx` in it (R27, R28). -/
  call  : Option Call
  /-- The reply buffer `rx` (R28). -/
  rx    : Option Bytes
  /-- The reset line (spec/70_reset_and_hazards.md R230, R232; log entry 13). -/
  rst   : Bool
  /-- The requests the host presents, in order; the head stands on the request port (R30; log entry 16). -/
  host  : List HostReq
  /-- The responses given, oldest first (R35; log entry 17). -/
  resps : List Response
  /-- The calls answered, oldest first (log entry 17). -/
  trace : List Event
  /-- Transport and chip. -/
  env   : Env
  /-- The model's own: how many unspecified capacities have been drawn (log entry 7). -/
  free  : Nat
  deriving DecidableEq, Repr

/-- The frame buffer `tx` (R28): the frame of the call on the transport port. -/
def State.tx (s : State) : Option Bytes := s.call.bind Call.frame

/-- R39, R230: the machine right after reset. The parameters are R6's defaults (log entries 1 and 2). The chip's state is not
given (R233): the transport's answers are free draws, and the chip's fields, which no free draw reads, hold the values of
log entry 10. -/
def State.reset : State where
  par   := Config.default
  life  := .unbound
  afw   := .unset
  id    := 0
  hnd   := none
  cfg   := {}
  seq   := .idle
  failCode := 0
  call  := none
  rx    := none
  rst   := false
  host  := []
  resps := []
  trace := []
  env   := {}
  free  := 0

/-- Where the machine stops. CMDENC has no traps (R200), so both are the model's own, and both are safe: they are raised
only in states that no run from reset reaches (log entry 8). -/
inductive Fault where
  /-- Raised by every request that would call the transport with `HND = NONE`, which R25 says CMDENC never does. -/
  | noHandle
  /-- Raised by READ and WRITE at `AFW = UNSET` on a READY handle: spec/30_encoding.md R83 gives `Frame` the widths 3 and 4
  only. -/
  | noWidth
  deriving DecidableEq, Repr

/-- Where the model gives no meaning. Safe: the model stops. -/
inductive Refusal where
  /-- Raised by an arm of `exec` whose request has no meaning yet. -/
  | notModelled (mnemonic : String)
  /-- Raised by RDID, RDSR, READ and INIT when the transport answers a full-duplex call with `len(rx) ≠ len(tx)`, and by INIT
  and DESTROY when the transport has no more answers for a `Close`: spec/93_implementation_defined.md I20 gives such a transport
  no meaning (log entry 6). -/
  | transportDuty
  deriving DecidableEq, Repr

/-- What one step answers. -/
abbrev Result := Host.Outcome State Fault Refusal

end Sys2Proof.Machine
end

