-- ==== Sys2Proof/Machine/Flags.lean ====
section
/-! DEFINITION. The chip's status register (spec/10_state.md R38, spec/20_memory.md R66 to R68). CMDENC itself has no flags
(spec/40_lifecycle.md, the template): these are the reference device's. -/

namespace Sys2Proof.Machine

/-- The status byte the reference device answers (R67): bit 7 WPEN, bits 3:2 BP1:BP0, bit 1 WEL, the others 0. -/
def Chip.status (c : Chip) : Byte :=
  (if c.wpen then 0x80 else 0) ||| (if c.bp1 then 0x08 else 0) |||
    (if c.bp0 then 0x04 else 0) ||| (if c.wel then 0x02 else 0)

/-- WRSR on the reference device (R66): with WEL set the bits 7, 3 and 2 are written and WEL is cleared; without WEL
nothing changes. -/
def Chip.writeStatus (c : Chip) (v : Byte) : Chip :=
  if c.wel then
    { c with wpen := v.getLsbD 7, bp1 := v.getLsbD 3, bp0 := v.getLsbD 2, wel := false }
  else c

/-- WREN and WRDI on the reference device (R68). -/
def Chip.setWel (c : Chip) (b : Bool) : Chip := { c with wel := b }

end Sys2Proof.Machine
end

