-- ==== Sys2Proof/Machine/Memory.lean ====
section
/-! DEFINITION. The chip's byte array in canonical form: addresses strictly rising, no entry that equals what an unlisted
address reads as. Accesses of a block wrap at the capacity (spec/20_memory.md R62). -/

namespace Sys2Proof.Machine

/-- What an unlisted address reads as. DESIGN CHOICE (log entry 11): 0x00, the start contents of the test vectors
(spec/95_test_vectors.md); spec/70_reset_and_hazards.md R233 gives none. -/
def blankByte : Byte := 0x00

/-- Canonical from address `lo` on. -/
def Memory.wfFrom (lo : Nat) : Memory → Bool
  | [] => true
  | (x, b) :: m => decide (lo ≤ x) && b != blankByte && Memory.wfFrom (x + 1) m

/-- The canonical form. -/
def Memory.wf (m : Memory) : Bool := m.wfFrom 0

/-- The byte at an address. -/
def Memory.get : Memory → Nat → Byte
  | [], _ => blankByte
  | (x, b) :: m, a => if x = a then b else Memory.get m a

/-- A listed byte, or none where the value is what an unlisted address reads as anyway. -/
def Memory.cell (a : Nat) (b : Byte) : Memory :=
  if b = blankByte then [] else [(a, b)]

/-- Store one byte, keeping the canonical form. -/
def Memory.set : Memory → Nat → Byte → Memory
  | [], a, b => Memory.cell a b
  | (x, c) :: m, a, b =>
    if a < x then Memory.cell a b ++ (x, c) :: m
    else if a = x then Memory.cell a b ++ m
    else (x, c) :: Memory.set m a b

/-- `MemRead(a, n)` of R62. -/
def Memory.readBlock (cap : Nat) (m : Memory) (a : Nat) : Nat → Bytes
  | 0 => []
  | n + 1 => m.get (a % cap) :: Memory.readBlock cap m (a + 1) n

/-- `MemWrite(a, n, v)` of R62: the bytes in increasing order, so that a later one overwrites an earlier one (R65). -/
def Memory.writeBlock (cap : Nat) (m : Memory) (a : Nat) : Bytes → Memory
  | [] => m
  | b :: bs => Memory.writeBlock cap (m.set (a % cap) b) (a + 1) bs

end Sys2Proof.Machine
end

