-- ==== Sys2Proof/Machine/Operands.lean ====
section
/-! DEFINITION. Operand assembly and reply decoding (spec/20_memory.md R51 to R56, spec/30_encoding.md R83 to R88): address
bytes, frame headers, fillers, the identifier and its density, the bus configuration. -/

namespace Sys2Proof.Machine

/-- `AddrBytes(a, n)` (R52): the low `8n` bits of the address, most significant byte first; higher bits are dropped (R51). -/
def addrBytes (a : U32) : Nat → Bytes
  | 0 => []
  | n + 1 => a.extractLsb' (8 * n) 8 :: addrBytes a n

/-- `Frame(op, a, w)` (R83): the op-code and `w - 1` address bytes. -/
def frameHeader (op : Byte) (a : U32) (w : Nat) : Bytes :=
  op :: addrBytes a (w - 1)

/-- `fill(n)` (R8). -/
def fill (n : Nat) : Bytes := List.replicate n fillByte

/-- Format `F_ID` (R84): the frame of RDID and of INIT's identifier read. -/
def idFrame (p : Config) : Bytes := p.opcRdid :: fill 4

/-- Format `F_OPB` for RDSR (R84). -/
def rdsrFrame (p : Config) : Bytes := [p.opcRdsr, 0x00]

/-- Format `F_OPB` for WRSR (R84); the value is not masked (R87 (b)). -/
def wrsrFrame (p : Config) (value : Byte) : Bytes := [p.opcWrsr, value]

/-- The frame of WRITE (R85): header and data verbatim (R87 (c)). -/
def writeFrame (p : Config) (w : Nat) (addr : U32) (data : Bytes) : Bytes :=
  frameHeader p.opcWrite addr w ++ data

/-- The number of bytes a READ asks for: `LEN` as a `Nat`, used only after the check `LEN ≥ 1` (R87 (d)). -/
def readCount (len : I32) : Nat := len.toInt.toNat

/-- The frame of READ (R85). -/
def readFrame (p : Config) (w : Nat) (addr : U32) (len : I32) : Bytes :=
  frameHeader p.opcRead addr w ++ fill (readCount len)

/-- Reply byte `i`; the transport's duty (R33) makes every index used exist. -/
def replyByte (rx : Bytes) (i : Nat) : Byte := rx.getD i 0

/-- `IdFromReply(rx)` (R54): bytes 1 to 4, little-endian. -/
def idFromReply (rx : Bytes) : U32 :=
  (replyByte rx 1).setWidth 32 ||| (replyByte rx 2).setWidth 32 <<< 8 |||
    (replyByte rx 3).setWidth 32 <<< 16 ||| (replyByte rx 4).setWidth 32 <<< 24

/-- The READ payload (R56, R87 (f)): `rx[w .. w + n)`. -/
def payload (rx : Bytes) (w n : Nat) : Bytes := (rx.drop w).take n

/-- `DENS` (R24): bits 23:16 of the identifier. -/
def dens (id : U32) : Byte := id.extractLsb' 16 8

/-- Width selection (R133): the unsigned comparison `DENS > 3`. -/
def widthOf (d : Byte) : Afw :=
  if d.toNat > densityLimit then .w4 else .w3

/-- `(1 << DENS) * 1024` (R180), exact. -/
def capacity (d : Byte) : Nat := 2 ^ d.toNat * 1024

/-- `min(CLK, CLK_MAX_HZ)` (R26, R87 (e)). -/
def clampClk (p : Config) (clk : U32) : U32 := BitVec.ofNat 32 (min clk.toNat p.clkMaxHz)

/-- The configuration INIT resolves (R26, R110). -/
def resolveCfg (p : Config) (bus cs : U32) (csGpio : I32) (clk : U32) : BusCfg where
  bus    := bus
  cs     := cs
  csGpio := csGpio
  clkHz  := clampClk p clk
  bits   := 8
  mode   := 0
  order  := .msbFirst

/-- Big-endian reading of address bytes, as the reference device reads them (R63). -/
def bigEndian (bs : Bytes) : Nat := bs.foldl (fun v b => v * 256 + b.toNat) 0

end Sys2Proof.Machine
end

