-- ==== Sys2Proof/Machine/Chip.lean ====
section
/-! DEFINITION. The reference device (spec/20_memory.md R62 to R69): one frame is one transport call with chip-select held. -/

namespace Sys2Proof.Machine

/-- `CAP` (R62). -/
def Chip.cap (c : Chip) : Nat := capacity c.idb.b2

/-- `NDEV` (R62): the address bytes the device expects. -/
def Chip.ndev (c : Chip) : Nat := if c.idb.b2.toNat > densityLimit then 3 else 2

/-- `MemRead(a, n)` (R62). -/
def Chip.memRead (c : Chip) (a n : Nat) : Bytes := Memory.readBlock c.cap c.mem a n

/-- `MemWrite(a, n, v)` (R62). -/
def Chip.memWrite (c : Chip) (a : Nat) (v : Bytes) : Chip :=
  { c with mem := Memory.writeBlock c.cap c.mem a v }

/-- The address of a frame (R63): the first `NDEV` bytes after the op-code, big-endian, modulo `CAP`. -/
def Chip.frameAddr (c : Chip) (args : Bytes) : Nat := bigEndian (args.take c.ndev) % c.cap

/-- A reply of exactly `n` bytes: every byte that is not named is 0x00 (R63). -/
def replyOf (n : Nat) (named : Bytes) : Bytes :=
  named.take n ++ List.replicate (n - named.length) 0x00

/-- A WRITE frame's effect (R65), from the bytes after its op-code. A frame that ends inside the address field changes
nothing (DESIGN CHOICE, log entry 14; CMDENC sends none). -/
def Chip.writeFrame (c : Chip) (args : Bytes) : Chip :=
  if c.wel && decide (c.ndev ≤ args.length) then
    { c.memWrite (c.frameAddr args) (args.drop c.ndev) with wel := false }
  else c

/-- A WRSR frame's effect (R66), from the bytes after its op-code. A frame with no value byte changes nothing (DESIGN CHOICE,
log entry 14; CMDENC sends none). -/
def Chip.wrsrFrame (c : Chip) (args : Bytes) : Chip :=
  match args with
  | [] => c
  | v :: _ => c.writeStatus v

/-- The reply to a READ frame (R64), from the bytes after its op-code. -/
def Chip.readReply (c : Chip) (args : Bytes) : Bytes :=
  List.replicate (1 + c.ndev) 0x00 ++ c.memRead (c.frameAddr args) (args.length - c.ndev)

/-- The reply to an RDID frame (R69). -/
def Chip.idReply (c : Chip) : Bytes := [0x00, c.idb.b0, c.idb.b1, c.idb.b2, c.idb.b3]

/-- What a frame does to the device (R63 to R69). A frame whose first byte is no op-code has no effect. -/
def Chip.afterFrame (p : Config) (tx : Bytes) (c : Chip) : Chip :=
  match tx with
  | [] => c
  | op :: args =>
    if op = p.opcWrite then c.writeFrame args
    else if op = p.opcWrsr then c.wrsrFrame args
    else if op = p.opcWren then c.setWel true
    else if op = p.opcWrdi then c.setWel false
    else c

/-- The reply to a frame, as long as the frame (R63 to R69). `free` gives the bytes that may be any value: those of a frame
whose first byte is no op-code (R63). -/
def Chip.reply (p : Config) (free : Nat → Byte) (tx : Bytes) (c : Chip) : Bytes :=
  match tx with
  | [] => []
  | op :: args =>
    if op = p.opcRead then replyOf tx.length (c.readReply args)
    else if op = p.opcRdsr then replyOf tx.length [0x00, c.status]
    else if op = p.opcRdid then replyOf tx.length c.idReply
    else if op ∈ p.opcodes then replyOf tx.length []
    else (List.range tx.length).map free

end Sys2Proof.Machine
end

