-- ==== Sys2Proof/Machine/Transport.lean ====
section
/-! DEFINITION. The transport (spec/00_scope.md R11, spec/10_state.md R31 to R34, spec/20_memory.md R70): what answers the call
that stands on the transport port. Each operation gives the answer and the environment after it. -/

namespace Sys2Proof.Machine

/-- Keep the part of a success that a call uses. -/
def Answer.map {α β : Type} (f : α → β) : Answer α → Answer β
  | .silent => .silent
  | .err c => .err c
  | .ok a => .ok (f a)

/-- One free draw (R33, I6, I7): whether it answers, its code, and a success that keeps the duties of R33. -/
def drawAnswer {α : Type} (n : Nat) (success : α) : Answer α :=
  match Config.drawVerdict n with
  | .silent => .silent
  | .err => .err (Config.drawCode n)
  | .ok => .ok success

/-- `Open(cfg)` (R11). The reference transport answers `Ok(1)` (R70). -/
def Env.openBus (e : Env) : Answer Token × Env :=
  match e.link with
  | .draws => (drawAnswer e.drawn (Config.drawToken e.drawn), { e with drawn := e.drawn + 1 })
  | .script [] => (.silent, e)
  | .script (a :: rest) => (a.map Success.token, { e with link := .script rest })
  | .reference [] => (.ok 1, e)
  | .reference (.pass :: rest) => (.ok 1, { e with link := .reference rest })
  | .reference (.fail c _ :: rest) => (.err c, { e with link := .reference rest })
  | .reference (.hang :: rest) => (.silent, { e with link := .reference rest })

/-- A drawn `Close` that waits for `n` more steps. -/
def Env.closeAfter (n : Nat) (e : Env) : Closing × Env :=
  match n with
  | 0 => (.done, { e with closeLeft := none })
  | m + 1 => (.waits, { e with closeLeft := some m })

/-- `Close(h)` (R11): it has no result and always completes (R33 (b)), after a free number of steps if it is drawn. The
reference transport completes it at once and the device sees nothing (R70). -/
def Env.close (e : Env) : Closing × Env :=
  match e.link with
  | .draws =>
    match e.closeLeft with
    | none => Env.closeAfter (Config.drawDelay e.drawn) { e with drawn := e.drawn + 1 }
    | some n => Env.closeAfter n e
  | .script [] => (.never, e)
  | .script (.silent :: rest) => (.waits, { e with link := .script rest })
  | .script (.err _ :: rest) => (.done, { e with link := .script rest })
  | .script (.ok _ :: rest) => (.done, { e with link := .script rest })
  | .reference [] => (.done, e)
  | .reference (.pass :: rest) => (.done, { e with link := .reference rest })
  | .reference (.fail _ _ :: rest) => (.done, { e with link := .reference rest })
  | .reference (.hang :: rest) => (.waits, { e with link := .reference rest })

/-- The reference transport and device on one frame with no injection (R63, R70): the count `len(tx)` (log entry 19), and the
device's reply. -/
def Env.refExchange (p : Config) (tx : Bytes) (e : Env) : Answer (I32 × Bytes) × Env :=
  (.ok (BitVec.ofNat 32 tx.length, e.chip.reply p (Config.drawByte e.drawn) tx),
    { e with chip := e.chip.afterFrame p tx, drawn := e.drawn + 1 })

/-- One exchange of a frame (R11): the code and the reply bytes. A free draw gives a reply as long as the frame (R33 (a)). -/
def Env.exchange (p : Config) (tx : Bytes) (e : Env) : Answer (I32 × Bytes) × Env :=
  match e.link with
  | .draws =>
    (drawAnswer e.drawn (Config.drawCode e.drawn, (List.range tx.length).map (Config.drawByte e.drawn)),
      { e with drawn := e.drawn + 1 })
  | .script [] => (.silent, e)
  | .script (a :: rest) => (a.map fun u => (u.code, u.rx), { e with link := .script rest })
  | .reference [] => e.refExchange p tx
  | .reference (.pass :: rest) => Env.refExchange p tx { e with link := .reference rest }
  | .reference (.fail c seen :: rest) =>
    (.err c, { e with link := .reference rest, chip := e.chip.afterFrame p (tx.take seen) })
  | .reference (.hang :: rest) => (.silent, { e with link := .reference rest })

/-- `XferFull(tx)` (R11): the result code and the reply bytes. -/
def Env.xferFull (p : Config) (tx : Bytes) (e : Env) : Answer (I32 × Bytes) × Env :=
  e.exchange p tx

/-- `Xfer(tx)` (R11): the byte count; the reply bytes are not returned. -/
def Env.xfer (p : Config) (tx : Bytes) (e : Env) : Answer I32 × Env :=
  ((e.exchange p tx).1.map Prod.fst, (e.exchange p tx).2)

/-- What a reset leaves of the environment (spec/70_reset_and_hazards.md R232, R233): the chip is not reset; with a call in
flight its answer and the chip's response are unspecified, so the answers become free draws (I19, log entry 12). -/
def Env.afterReset (inFlight : Bool) (e : Env) : Env :=
  if inFlight then { e with link := .draws, closeLeft := none } else e

end Sys2Proof.Machine
end

