-- ==== Sys2Proof/Machine/Ops.lean ====
section
/-! DEFINITION. The shared operations of the ten requests: responding and raising (spec/00_scope.md R12), releasing the handle
(spec/40_lifecycle.md R111), the transport calls (spec/10_state.md R25, R27, R31), the shared checks (spec/60_exceptions.md
R208), and taking the next request off the host port (R30). -/

namespace Sys2Proof.Machine

/-! ### Ending a request -/

/-- `respond` (R12): the response goes on the response port, the buffers are released (R28) and the sequencer returns to IDLE.
There is no other return (R210). -/
def respond (r : Response) (s : State) : State :=
  { s with seq := .idle, call := none, rx := none, resps := s.resps ++ [r] }

/-- `raise E(x)` (R12, R209): the one way an error is taken. It saves nothing, changes no register and jumps nowhere. -/
def raise (e : Err) (x : I32) (s : State) : State :=
  respond { err := e, xcode := x } s

/-! ### The handle -/

/-- `Unbind()` (R111): the handle's reset state (R39); no transport call. -/
def unbind (s : State) : State :=
  { s with life := .unbound, hnd := none, afw := .unset, id := 0, cfg := {} }

/-- An answered call leaves the transport port and goes to the trace. -/
def answered (c : Call) (r : Reply) (s : State) : State :=
  { s with call := none, trace := s.trace ++ [{ call := c, reply := r }] }

/-! ### Transport calls -/

/-- A step that waits (R27, R245): the call stands on the port and the sequencer stays at its step (log entry 5). -/
def await (i : Instr) (k : Nat) (c : Call) (s : State) : State :=
  { s with seq := .busy i k, call := some c }

/-- `Open(CFG)` at step `k` of request `i` (R11, R26). -/
def callOpen (i : Instr) (k : Nat) (s : State) (onErr : I32 → State → Result) (onOk : Token → State → Result) : Result :=
  let s' := { s with env := s.env.openBus.2 }
  match s.env.openBus.1 with
  | .silent => .next (await i k (.openBus s.cfg) s')
  | .err c => onErr c (answered (.openBus s.cfg) (.failed c) s')
  | .ok h => onOk h (answered (.openBus s.cfg) (.opened h) s')

/-- `Xfer(HND, tx)` at step `k` of request `i` (R11). -/
def callXfer (i : Instr) (k : Nat) (tx : Bytes) (s : State) (onErr : I32 → State → Result) (onOk : I32 → State → Result) :
    Result :=
  match s.hnd with
  | none => .fault .noHandle
  | some h =>
    let s' := { s with env := (s.env.xfer s.par tx).2 }
    match (s.env.xfer s.par tx).1 with
    | .silent => .next (await i k (.xfer h tx) s')
    | .err c => onErr c (answered (.xfer h tx) (.failed c) s')
    | .ok n => onOk n (answered (.xfer h tx) (.count n) s')

/-- `XferFull(HND, tx)` at step `k` of request `i` (R11). The reply goes to the buffer `rx`, apart from `tx` (R28, R246). A reply
of another length than the frame breaks the transport's duty (R33 (a)) and has no meaning (I20). -/
def callXferFull (i : Instr) (k : Nat) (tx : Bytes) (s : State) (onErr : I32 → State → Result)
    (onOk : I32 → State → Result) : Result :=
  match s.hnd with
  | none => .fault .noHandle
  | some h =>
    let s' := { s with env := (s.env.xferFull s.par tx).2 }
    match (s.env.xferFull s.par tx).1 with
    | .silent => .next (await i k (.xferFull h tx) s')
    | .err c => onErr c (answered (.xferFull h tx) (.failed c) s')
    | .ok (c, rx) =>
      if rx.length = tx.length then
        onOk c { answered (.xferFull h tx) (.full c rx) s' with rx := some rx }
      else .refused .transportDuty

/-- `Close(HND)` at step `k` of request `i` (R11, R27): one call like the others, with no result. A transport that never
completes it has no meaning (I20). -/
def callClose (i : Instr) (k : Nat) (s : State) (onDone : State → Result) : Result :=
  match s.hnd with
  | none => .fault .noHandle
  | some h =>
    let s' := { s with env := s.env.close.2 }
    match s.env.close.1 with
    | .waits => .next (await i k (.close h) s')
    | .done => onDone (answered (.close h) .closed s')
    | .never => .refused .transportDuty

/-- `if HND ≠ NONE then Close(HND)` at step `k` of request `i` (R110, R115). -/
def closeIfHeld (i : Instr) (k : Nat) (s : State) (onDone : State → Result) : Result :=
  match s.hnd with
  | none => onDone s
  | some _ => callClose i k s onDone

/-- The bytes in the reply buffer. -/
def State.reply (s : State) : Bytes := s.rx.getD []

/-! ### Shared checks and endings -/

/-- `if LIFE ≠ READY then raise InvalidHandle` (R201). -/
def needReady (s : State) (k : Result) : Result :=
  match s.life with
  | .unbound => .next (raise .invalidHandle 0 s)
  | .ready => k

/-- `AFW` as the width of `Frame` (R83), which has no meaning at UNSET. -/
def withWidth (s : State) (k : Nat → Result) : Result :=
  match s.afw with
  | .unset => .fault .noWidth
  | .w3 => k 3
  | .w4 => k 4

/-- `if n > FRAME_CAP then raise AllocationFailure` (R204). -/
def needRoom (n : Nat) (s : State) (k : Result) : Result :=
  if s.par.fits n then k else .next (raise .allocationFailure 0 s)

/-- `raise TransferError(c)` (R203). -/
def transferError (c : I32) (s : State) : Result := .next (raise .transferError c s)

/-- IllegalRequest (R206): no transport call, no register write. -/
def illegalRequest (s : State) : State := raise .illegalRequest 0 s

/-! ### The sequencer and the host port -/

/-- The step of its pseudocode at which a request runs: step 0 from IDLE (R27). -/
def Seq.position : Seq → Nat
  | .idle => 0
  | .busy _ k => k

/-- The request on the host port, and the state once it is accepted (R30). -/
def State.accept (s : State) : Option (HostReq × State) :=
  match s.host with
  | [] => none
  | r :: rest => some (r, { s with host := rest })

/-- Reset (R230, R232): CMDENC's state is that of R39, a running request ends with no response, no transport call is made, and
the reset line is seen to. The ports' logs, the parameters and the host stay; the chip is not reset (R233). -/
def State.resetNow (s : State) : State :=
  { s with
    life := .unbound, afw := .unset, id := 0, hnd := none, cfg := {}, seq := .idle, failCode := 0, call := none,
    rx := none, rst := false, env := s.env.afterReset s.call.isSome }

end Sys2Proof.Machine
end

