-- ==== Sys2Proof/Machine/Data.lean ====
section
/-! DEFINITION. The memory requests WRITE and READ (spec/43_data.md). The order of the checks is spec/60_exceptions.md R208. -/

namespace Sys2Proof.Machine

/-- WRITE (R160): `DPRES`, then the empty payload, then the frame's length; the answer is the transport's byte count. -/
def execWrite (addr : U32) (dpres : Bool) (data : Bytes) (s : State) : Result :=
  needReady s <|
    if dpres = false then .next (raise .invalidArgument 0 s)
    else if data = [] then .next (raise .invalidArgument 0 s)
    else withWidth s fun w =>
      needRoom (w + data.length) s <|
        callXfer (.write addr dpres data) 0 (writeFrame s.par w addr data) s transferError fun n s =>
          .next (respond { res := n } s)

/-- READ (R161): a length that is not positive, then the frame's length; the answer is the transport's result code and the
reply bytes after the header. -/
def execRead (addr : U32) (len : I32) (s : State) : Result :=
  needReady s <|
    if len.toInt ≤ 0 then .next (raise .invalidArgument 0 s)
    else withWidth s fun w =>
      needRoom (w + readCount len) s <|
        callXferFull (.read addr len) 0 (readFrame s.par w addr len) s transferError fun c s =>
          .next (respond { res := c, data := payload s.reply w (readCount len) } s)

end Sys2Proof.Machine
end

