-- ==== Sys2Proof/Machine/Identify.lean ====
section
/-! DEFINITION. The identification requests RDID (spec/41_identify.md) and GETCAP (spec/44_capacity.md). -/

namespace Sys2Proof.Machine

/-- RDID (R130): a success writes `ID` and leaves `AFW` alone (R134). -/
def execRdid (s : State) : Result :=
  needReady s <|
    callXferFull .rdid 0 (idFrame s.par) s transferError fun _ s =>
      .next (respond { idv := idFromReply s.reply } { s with id := idFromReply s.reply })

/-- GETCAP (R180): the exact capacity where it fits in `CAP_BITS` bits; else any value of that width, a free value (I5, log
entry 7). -/
def execGetcap (s : State) : Result :=
  needReady s <|
    if capacity (dens s.id) < 2 ^ s.par.capBits then
      .next (respond { capv := capacity (dens s.id) } s)
    else
      .next (respond { capv := Config.drawCapacity s.free % 2 ^ s.par.capBits } { s with free := s.free + 1 })

end Sys2Proof.Machine
end

