-- ==== Sys2Proof/Machine/Lifecycle.lean ====
section
/-! DEFINITION. The lifecycle requests INIT and DESTROY (spec/40_lifecycle.md). -/

namespace Sys2Proof.Machine

/-- INIT step 0 after its `Close` (R110): unbind, resolve the configuration. -/
def initRelease (i : Instr) (cfg : BusCfg) (s : State) : State :=
  { unbind s with cfg := cfg, seq := .busy i 1 }

/-- INIT's failure at `Open` (R110, R205): no handle is held, so no `Close` is made (R113 (a)). -/
def initOpenFail (c : I32) (s : State) : Result :=
  .next (raise .initializationFailure c (unbind s))

/-- INIT's failure at the identifier read (R110): the code is kept, and the step that closes the handle comes next. -/
def initIdentFail (i : Instr) (c : I32) (s : State) : Result :=
  .next { s with failCode := c, seq := .busy i 3 }

/-- INIT step 1 (R110): open the transport. -/
def initOpen (i : Instr) (s : State) : Result :=
  callOpen i 1 s initOpenFail fun h s => .next { s with hnd := some h, seq := .busy i 2 }

/-- INIT step 2 (R110, R112): the mandatory identifier read, the width selection of R133, and READY. -/
def initIdentify (i : Instr) (s : State) : Result :=
  callXferFull i 2 (idFrame s.par) s (initIdentFail i) fun _ s =>
    .next (respond { idv := idFromReply s.reply }
      { s with id := idFromReply s.reply, afw := widthOf (dens (idFromReply s.reply)), life := .ready })

/-- INIT's last step after a failed identifier read (R110, R113 (b), R205): the handle is closed before the answer. R27 makes the
call a step, and it is numbered 3 (log entry 3). -/
def initClose (i : Instr) (s : State) : Result :=
  callClose i 3 s fun s => .next (raise .initializationFailure s.failCode { unbind s with failCode := 0 })

/-- INIT (R110), one step of its pseudocode at a time (R27). -/
def execInit (bus cs : U32) (csGpio : I32) (clk : U32) (s : State) : Result :=
  match s.seq.position with
  | 0 =>
    closeIfHeld (.init bus cs csGpio clk) 0 s fun s =>
      .next (initRelease (.init bus cs csGpio clk) (resolveCfg s.par bus cs csGpio clk) s)
  | 1 => initOpen (.init bus cs csGpio clk) s
  | 2 => initIdentify (.init bus cs csGpio clk) s
  | _ => initClose (.init bus cs csGpio clk) s

/-- DESTROY (R115): never an error, and no call on a handle that is not held. -/
def execDestroy (s : State) : Result :=
  closeIfHeld .destroy 0 s fun s => .next (respond {} (unbind s))

end Sys2Proof.Machine
end

