-- ==== Sys2Proof/Machine/Status.lean ====
section
/-! DEFINITION. The status and latch requests RDSR, WRSR, WREN, WRDI (spec/42_status_latch.md). -/

namespace Sys2Proof.Machine

/-- The sentinel of RDSR (R141). -/
def srSentinel : Byte := 0xFF

/-- RDSR (R140): the second reply byte; every failure, and a handle that is not READY, becomes the sentinel with no error. -/
def execRdsr (s : State) : Result :=
  match s.life with
  | .unbound => .next (respond { sr := srSentinel } s)
  | .ready =>
    callXferFull .rdsr 0 (rdsrFrame s.par) s (fun _ s => .next (respond { sr := srSentinel } s)) fun _ s =>
      .next (respond { sr := replyByte s.reply 1 } s)

/-- WRSR (R142): the value is sent unmasked, and the byte count is discarded. -/
def execWrsr (value : Byte) (s : State) : Result :=
  needReady s <|
    callXfer (.wrsr value) 0 (wrsrFrame s.par value) s transferError fun _ s => .next (respond {} s)

/-- WREN (R144). -/
def execWren (s : State) : Result :=
  needReady s <|
    callXfer .wren 0 [s.par.opcWren] s transferError fun _ s => .next (respond {} s)

/-- WRDI (R145). -/
def execWrdi (s : State) : Result :=
  needReady s <|
    callXfer .wrdi 0 [s.par.opcWrdi] s transferError fun _ s => .next (respond {} s)

end Sys2Proof.Machine
end

