-- ==== Sys2Proof/Machine/Dispatch.lean ====
section
/-! DEFINITION. One arm per request. -/

namespace Sys2Proof.Machine

def exec (i : Instr) (s : State) : Host.Outcome State Fault Refusal :=
  match i with
  | .init bus cs csGpio clk => Sys2Proof.Machine.execInit bus cs csGpio clk s
  | .destroy => Sys2Proof.Machine.execDestroy s
  | .rdid => Sys2Proof.Machine.execRdid s
  | .getcap => Sys2Proof.Machine.execGetcap s
  | .rdsr => Sys2Proof.Machine.execRdsr s
  | .wrsr value => Sys2Proof.Machine.execWrsr value s
  | .wren => Sys2Proof.Machine.execWren s
  | .wrdi => Sys2Proof.Machine.execWrdi s
  | .write addr dpres data => Sys2Proof.Machine.execWrite addr dpres data s
  | .read addr len => Sys2Proof.Machine.execRead addr len s

end Sys2Proof.Machine
end

