-- ==== Sys2Proof/Machine/Step.lean ====
section
/-! DEFINITION. One step of the machine (spec/10_state.md R27, R30; spec/70_reset_and_hazards.md R230 to R232). -/

namespace Sys2Proof.Machine

/-- Accept the request on the host port, if there is one: run it, or refuse a reserved CMD with IllegalRequest (R86, R206,
R208). With no request CMDENC waits with its port ready (R231). -/
def stepIdle (s : State) : Host.Outcome State Fault Refusal :=
  match s.accept with
  | none => .next s
  | some (r, s') =>
    match decode r with
    | .ok i => exec i s'
    | .error _ => .next (illegalRequest s')

/-- One step: reset if its line is active (log entry 13); the running request's step if the sequencer is busy, the host being
held (R30); else the next request. -/
def step (s : State) : Host.Outcome State Fault Refusal :=
  if s.rst then .next s.resetNow
  else
    match s.seq with
    | .busy i _ => exec i s
    | .idle => stepIdle s

/-- The state whose very next step accepts and runs the request of a table word: the request stands on the host port, CMDENC
is idle with no call on its transport port, and the reset line is inactive (log entry 16). -/
def State.withFetchWord (s : State) (nbits w : Nat) : State :=
  { s with rst := false, seq := .idle, call := none, rx := none, host := HostReq.ofTableWord nbits w :: s.host }

end Sys2Proof.Machine
end

