-- ==== Sys2Proof/Machine/Asm.lean ====
section
/-! DEFINITION. The textual syntax of requests (spec/30_encoding.md R90, R91): one request on a line, comma-separated operands,
decimal or `0x` numbers, byte lists in brackets, comments after a semicolon. What R90 leaves open is in log entry 18. -/

namespace Sys2Proof.Asm

/-! ### Words of a line -/

/-- A lexical word of a line. -/
inductive Tok where
  | word (cs : List Char)
  | comma
  | lbrack
  | rbrack
  deriving DecidableEq, Repr

/-- The word read so far, if it has any character; its characters stand last first. -/
def flush (cur : List Char) : List Tok :=
  match cur with
  | [] => []
  | _ :: _ => [.word cur.reverse]

/-- Cut a line into words; a semicolon ends it. -/
def lex : List Char → List Char → List Tok
  | [], cur => flush cur
  | c :: cs, cur =>
    if c = ';' then flush cur
    else if c = ',' then flush cur ++ .comma :: lex cs []
    else if c = '[' then flush cur ++ .lbrack :: lex cs []
    else if c = ']' then flush cur ++ .rbrack :: lex cs []
    else if c.isWhitespace then flush cur ++ lex cs []
    else lex cs (c :: cur)

/-! ### Numbers -/

/-- The value of a digit in a base of at most 16. -/
def digit (base : Nat) (c : Char) : Option Nat :=
  let v := if '0' ≤ c ∧ c ≤ '9' then some (c.toNat - 48)
    else if 'a' ≤ c ∧ c ≤ 'f' then some (c.toNat - 87)
    else if 'A' ≤ c ∧ c ≤ 'F' then some (c.toNat - 55)
    else none
  v.filter (· < base)

/-- Digits after the value read so far. -/
def digits (base : Nat) : Nat → List Char → Option Nat
  | v, [] => some v
  | v, c :: cs => (digit base c).bind fun d => digits base (v * base + d) cs

/-- A number without sign: `0x` hexadecimal, or decimal. -/
def unsigned : List Char → Option Nat
  | [] => none
  | ['0', 'x'] => none
  | '0' :: 'x' :: cs => digits 16 0 cs
  | c :: cs => digits 10 0 (c :: cs)

/-- A number, perhaps negative. -/
def number : List Char → Option Int
  | '-' :: cs => (unsigned cs).map fun n => -(n : Int)
  | cs => (unsigned cs).map fun n => (n : Int)

/-! ### Operands -/

/-- An operand as R90 and R91 write it. -/
inductive Operand where
  | num (n : Int)
  | bytes (bs : List Int)
  | null
  | flag (b : Bool)
  deriving DecidableEq, Repr

/-- A word as an operand. -/
def wordOperand (w : List Char) : Option Operand :=
  if w = ['N', 'U', 'L', 'L'] then some .null
  else if w = ['t', 'r', 'u', 'e'] then some (.flag true)
  else if w = ['f', 'a', 'l', 's', 'e'] then some (.flag false)
  else (number w).map .num

/-- Where the reader of the operands stands; the bytes of an open list stand last first. -/
inductive Place where
  /-- Before the first operand: the line may end here. -/
  | start
  /-- After a comma. -/
  | want
  /-- After an operand: the line may end here. -/
  | got
  /-- After an opening bracket. -/
  | listStart
  /-- Inside a byte list, after a comma. -/
  | listWant (acc : List Int)
  /-- Inside a byte list, after a byte. -/
  | listGot (acc : List Int)
  deriving DecidableEq, Repr

/-- Read one word: the operands so far, first to last, and the place. -/
def feed (st : List Operand × Place) (t : Tok) : Option (List Operand × Place) :=
  match st.2, t with
  | .start, .word w => (wordOperand w).map fun o => (st.1 ++ [o], .got)
  | .want, .word w => (wordOperand w).map fun o => (st.1 ++ [o], .got)
  | .start, .lbrack => some (st.1, .listStart)
  | .want, .lbrack => some (st.1, .listStart)
  | .got, .comma => some (st.1, .want)
  | .listStart, .rbrack => some (st.1 ++ [.bytes []], .got)
  | .listStart, .word w => (number w).map fun n => (st.1, .listGot [n])
  | .listWant acc, .word w => (number w).map fun n => (st.1, .listGot (n :: acc))
  | .listGot acc, .comma => some (st.1, .listWant acc)
  | .listGot acc, .rbrack => some (st.1 ++ [.bytes acc.reverse], .got)
  | _, _ => none

/-- The operands of a line, from the words after its mnemonic. -/
def operands (ts : List Tok) : Option (List Operand) :=
  match ts.foldlM feed ([], .start) with
  | some (os, .start) => some os
  | some (os, .got) => some os
  | _ => none

/-! ### Operand widths (R80) -/

/-- A number as an unsigned field of `w` bits. -/
def toUnsigned (w : Nat) (n : Int) : Option (BitVec w) :=
  if 0 ≤ n ∧ n < 2 ^ w then some (BitVec.ofInt w n) else none

/-- A number as a signed field of 32 bits. -/
def toI32 (n : Int) : Option I32 :=
  if -(2 ^ 31) ≤ n ∧ n < 2 ^ 31 then some (BitVec.ofInt 32 n) else none

/-- The bytes of a byte list. -/
def toBytes (ns : List Int) : Option Bytes := ns.mapM (toUnsigned 8)

/-! ### Requests -/

/-- Why a line is no request. -/
inductive AsmError where
  | unknownMnemonic
  | badOperands
  deriving DecidableEq, Repr

/-- The mnemonics of R81 and the pseudo-instruction of R91. -/
inductive Mnemonic where
  | init | destroy | rdid | getcap | rdsr | wrsr | wren | wrdi | write | read | writeEnable
  deriving DecidableEq, Repr

/-- A mnemonic by its spelling. -/
def mnemonic (w : List Char) : Option Mnemonic :=
  if w = ['I', 'N', 'I', 'T'] then some .init
  else if w = ['D', 'E', 'S', 'T', 'R', 'O', 'Y'] then some .destroy
  else if w = ['R', 'D', 'I', 'D'] then some .rdid
  else if w = ['G', 'E', 'T', 'C', 'A', 'P'] then some .getcap
  else if w = ['R', 'D', 'S', 'R'] then some .rdsr
  else if w = ['W', 'R', 'S', 'R'] then some .wrsr
  else if w = ['W', 'R', 'E', 'N'] then some .wren
  else if w = ['W', 'R', 'D', 'I'] then some .wrdi
  else if w = ['W', 'R', 'I', 'T', 'E'] then some .write
  else if w = ['R', 'E', 'A', 'D'] then some .read
  else if w = ['W', 'R', 'I', 'T', 'E', '_', 'E', 'N', 'A', 'B', 'L', 'E'] then some .writeEnable
  else none

/-- The request of a mnemonic and its operands (the forms of R90, the expansion of R91). -/
def request (m : Mnemonic) (os : List Operand) : Option Instr :=
  match m, os with
  | .init, [.num bus, .num cs, .num gpio, .num clk] =>
    (toUnsigned 32 bus).bind fun bus => (toUnsigned 32 cs).bind fun cs => (toI32 gpio).bind fun gpio =>
      (toUnsigned 32 clk).map fun clk => .init bus cs gpio clk
  | .destroy, [] => some .destroy
  | .rdid, [] => some .rdid
  | .getcap, [] => some .getcap
  | .rdsr, [] => some .rdsr
  | .wrsr, [.num v] => (toUnsigned 8 v).map .wrsr
  | .wren, [] => some .wren
  | .wrdi, [] => some .wrdi
  | .write, [.num a, .bytes bs] => (toUnsigned 32 a).bind fun a => (toBytes bs).map fun d => .write a true d
  | .write, [.num a, .null] => (toUnsigned 32 a).map fun a => .write a false []
  | .read, [.num a, .num n] => (toUnsigned 32 a).bind fun a => (toI32 n).map fun n => .read a n
  | .writeEnable, [.flag e] => some (Instr.writeEnable e)
  | _, _ => none

/-- A request as R90 writes it: its mnemonic and its operands. -/
def form : Instr → Mnemonic × List Operand
  | .init bus cs csGpio clk =>
    (.init, [.num (bus.toNat : Int), .num (cs.toNat : Int), .num csGpio.toInt, .num (clk.toNat : Int)])
  | .destroy => (.destroy, [])
  | .rdid => (.rdid, [])
  | .getcap => (.getcap, [])
  | .rdsr => (.rdsr, [])
  | .wrsr value => (.wrsr, [.num (value.toNat : Int)])
  | .wren => (.wren, [])
  | .wrdi => (.wrdi, [])
  | .write addr true data => (.write, [.num (addr.toNat : Int), .bytes (data.map fun b => (b.toNat : Int))])
  | .write addr false _ => (.write, [.num (addr.toNat : Int), .null])
  | .read addr len => (.read, [.num (addr.toNat : Int), .num len.toInt])

/-- One line: nothing on an empty or comment line, else one request. -/
def assembleLine (line : List Char) : Except AsmError (Option Instr) :=
  match lex line [] with
  | [] => .ok none
  | .word w :: ts =>
    match mnemonic w with
    | none => .error .unknownMnemonic
    | some m =>
      match (operands ts).bind (request m) with
      | none => .error .badOperands
      | some i => .ok (some i)
  | _ :: _ => .error .unknownMnemonic

/-- A text of lines as the requests the host presents, in order. -/
def assemble : List (List Char) → Except AsmError (List HostReq)
  | [] => .ok []
  | l :: ls =>
    match assembleLine l, assemble ls with
    | .error e, _ => .error e
    | _, .error e => .error e
    | .ok none, .ok rs => .ok rs
    | .ok (some i), .ok rs => .ok (encode i :: rs)

end Sys2Proof.Asm
end

