-- ==== Sys2Proof/Safety.lean ====
section
/-! DEFINITION. What counts as a good state of CMDENC, in the terms the statements use: the invariant of every run
(spec/10_state.md R21, R22, R25 to R28, R36, R37, R39), and what may stand on the transport port (spec/30_encoding.md R82, R85,
R88). -/

namespace Sys2Proof.Machine

/-- The registers of the handle (R20) as one value. -/
structure Handle where
  life : Life
  afw  : Afw
  id   : U32
  hnd  : Option Token
  cfg  : BusCfg
  deriving DecidableEq, Repr

/-- The handle's registers in a state. -/
def State.handle (s : State) : Handle := ⟨s.life, s.afw, s.id, s.hnd, s.cfg⟩

/-- The handle's reset value (R39, R111). -/
def Handle.empty : Handle := ⟨.unbound, .unset, 0, none, {}⟩

/-- The fixed fields of `CFG` (R26). -/
def BusCfg.fixedFields (c : BusCfg) : Prop := c.bits = 8 ∧ c.mode = 0 ∧ c.order = .msbFirst

/-- A READY handle that a request can use (R21): it has a transport handle and a width. -/
def State.usable (s : State) : Prop := s.life = .ready ∧ s.hnd.isSome ∧ s.afw ≠ .unset

/-- The transport call a READY request makes (R85), with the handle's token and width; INIT, DESTROY and GETCAP have none. -/
def readyCall (p : Config) (h : Token) (w : Afw) : Instr → Option Call
  | .init _ _ _ _ => none
  | .destroy => none
  | .rdid => some (.xferFull h (idFrame p))
  | .getcap => none
  | .rdsr => some (.xferFull h (rdsrFrame p))
  | .wrsr v => some (.xfer h (wrsrFrame p v))
  | .wren => some (.xfer h [p.opcWren])
  | .wrdi => some (.xfer h [p.opcWrdi])
  | .write a _ d => some (.xfer h (writeFrame p w.code a d))
  | .read a n => some (.xferFull h (readFrame p w.code a n))

/-- The call of step 0 of a request on a usable handle: `Close` for INIT and DESTROY (R110, R115), else the one of R85. -/
def firstCall (p : Config) (h : Token) (w : Afw) (i : Instr) : Option Call :=
  match i with
  | .init _ _ _ _ | .destroy => some (.close h)
  | .rdid | .getcap | .rdsr | .wrsr _ | .wren | .wrdi | .write _ _ _ | .read _ _ => readyCall p h w i

/-- What holds at each position of the sequencer. IDLE: no buffer exists (R28, R39), and the handle is either in its reset
value or usable (R21, R22, R37). At INIT's `Open` the handle is its reset value but for `CFG`; at INIT's identifier read it
has its token too, and so at the `Close` after a failed one. Any other busy request stands at its step 0 on a usable handle and
waits for the call of that step. -/
def State.seqOk (s : State) : Prop :=
  match s.seq with
  | .idle => s.call = none ∧ s.rx = none ∧ (s.handle = Handle.empty ∨ s.usable)
  | .busy (.init bus cs csGpio clk) 1 =>
    s.rx = none ∧ s.handle = { Handle.empty with cfg := resolveCfg s.par bus cs csGpio clk } ∧
      (s.call = none ∨ s.call = some (.openBus s.cfg))
  | .busy (.init bus cs csGpio clk) 2 =>
    s.rx = none ∧ ∃ h, s.handle = { Handle.empty with hnd := some h, cfg := resolveCfg s.par bus cs csGpio clk } ∧
      (s.call = none ∨ s.call = some (.xferFull h (idFrame s.par)))
  | .busy (.init bus cs csGpio clk) 3 =>
    s.rx = none ∧ ∃ h, s.handle = { Handle.empty with hnd := some h, cfg := resolveCfg s.par bus cs csGpio clk } ∧
      (s.call = none ∨ s.call = some (.close h))
  | .busy i k =>
    k = 0 ∧ s.rx = none ∧ s.usable ∧ ∃ h, s.hnd = some h ∧ s.call.isSome ∧ s.call = firstCall s.par h s.afw i

/-- The reference device's array is in canonical form and inside the capacity. -/
def Chip.memOk (c : Chip) : Prop := Memory.wf c.mem = true ∧ ∀ x ∈ c.mem, x.1 < c.cap

/-- The invariant of every run. -/
structure State.Inv (s : State) : Prop where
  par  : s.par.wf = true
  cfg  : s.cfg.fixedFields
  seq  : s.seqOk
  chip : s.env.chip.memOk
  /-- A failure code is held only while the `Close` after a failed identifier read is due. -/
  fail : s.failCode = 0 ∨ ∃ bus cs g clk, s.seq = .busy (.init bus cs g clk) 3
  /-- A drawn `Close` is waited for only while it stands on the port. -/
  wait : s.env.closeLeft = none ∨ s.env.link = .draws ∧ ∃ h, s.call = some (.close h)

/-- Whether the transport keeps its duties by construction: only written-out answers can break them (R33, I20). -/
def Link.dutiful : Link → Prop
  | .script _ => False
  | .draws => True
  | .reference _ => True

/-- What R82, R85 and R204 allow in a frame: it begins with one of the seven op-codes and is no longer than `FRAME_CAP`. -/
def Call.frameOk (p : Config) (c : Call) : Prop :=
  ∀ tx, c.frame = some tx → (∃ op args, tx = op :: args ∧ op ∈ p.opcodes) ∧ p.fits tx.length = true

/-- Every frame answered so far is one CMDENC may send. -/
def State.traceOk (s : State) : Prop := ∀ e ∈ s.trace, e.call.frameOk s.par

/-- The requests that may raise each error (R200). -/
def Err.raisedBy : Err → Instr → Bool
  | .ok, _ => true
  | .invalidHandle, i =>
    match i with
    | .rdid | .wrsr _ | .wren | .wrdi | .write _ _ _ | .read _ _ | .getcap => true
    | .init _ _ _ _ | .destroy | .rdsr => false
  | .invalidArgument, i =>
    match i with
    | .write _ _ _ | .read _ _ => true
    | .init _ _ _ _ | .destroy | .rdid | .getcap | .rdsr | .wrsr _ | .wren | .wrdi => false
  | .allocationFailure, i =>
    match i with
    | .write _ _ _ | .read _ _ => true
    | .init _ _ _ _ | .destroy | .rdid | .getcap | .rdsr | .wrsr _ | .wren | .wrdi => false
  | .transferError, i =>
    match i with
    | .rdid | .wrsr _ | .wren | .wrdi | .write _ _ _ | .read _ _ => true
    | .init _ _ _ _ | .destroy | .getcap | .rdsr => false
  | .initializationFailure, i =>
    match i with
    | .init _ _ _ _ => true
    | .destroy | .rdid | .getcap | .rdsr | .wrsr _ | .wren | .wrdi | .write _ _ _ | .read _ _ => false
  | .illegalRequest, _ => false

/-- The request whose step the machine takes next: the running one, or at IDLE the one on the host port. -/
def State.runs (s : State) (i : Instr) : Prop :=
  (∃ k, s.seq = .busy i k) ∨ (s.seq = .idle ∧ ∃ q rest, s.host = q :: rest ∧ decode q = .ok i)

/-- The machine after `n` steps, each of which goes on. -/
def stepN : Nat → State → Result
  | 0, s => .next s
  | n + 1, s =>
    match step s with
    | .next t => stepN n t
    | .fault f => .fault f
    | .refused r => .refused r

/-- INIT or DESTROY: the requests of the lifecycle family. -/
def isLifecycle : Instr → Bool
  | .init _ _ _ _ | .destroy => true
  | .rdid | .getcap | .rdsr | .wrsr _ | .wren | .wrdi | .write _ _ _ | .read _ _ => false

/-- The checks of R208 between READY and the transport pass: WRITE has data and READ a positive length, and their frame fits. -/
def State.sendable (s : State) : Instr → Prop
  | .write _ p d => p = true ∧ d ≠ [] ∧ s.afw ≠ .unset ∧ s.par.fits (s.afw.code + d.length) = true
  | .read _ n => 0 < n.toInt ∧ s.afw ≠ .unset ∧ s.par.fits (s.afw.code + n.toInt.toNat) = true
  | .init _ _ _ _ | .destroy | .rdid | .getcap | .rdsr | .wrsr _ | .wren | .wrdi => True

/-- The token a call passes (R25); `Open` passes none. -/
def Call.token : Call → Option Token
  | .openBus _ => none
  | .xfer h _ => some h
  | .xferFull h _ => some h
  | .close h => some h

end Sys2Proof.Machine
end

