-- ==== Sys2Proof/Certificates/Slice0/Obligations.lean ====
section
/-! DEFINITION. The statements about CMDENC. Each next state is written out as a record, so that a field not named in it is
unchanged: the frame is part of the equation. The transport's answer is a premise about the state (`s.env.xfer … = …`): it is
what the environment in that state answers, and the statements quantify over every environment. -/

open Sys2Proof Sys2Proof.Machine

/-! ### Encoding and decoding of requests -/

/-- R80, R81: decoding the encoded request gives it back, every operand at every value. -/
def Obligations.DecodeEncodeAgree : Prop :=
  ∀ i : Instr, i.wellFormed = true → decode (encode i) = .ok i

/-- R80, R81: a record decodes to a request exactly when its CMD selects it and the fields R80 lists for it hold its operands;
no other field matters. That an absent buffer has no bytes is the model's choice (log entry 9). -/
def Obligations.DecodeReadsExactlyTheOperands : Prop :=
  ∀ (r : HostReq) (i : Instr), decode r = .ok i ↔ i.wellFormed = true ∧ r.carries i

/-- R86: the CMD values that do not decode are the 246 others, 0x00 and 0xFF among them. -/
def Obligations.ReservedCmdsAreTheOthers : Prop :=
  (∀ r : HostReq, decode r = .error (.reservedCmd r.cmd) ↔ r.cmd ∉ assignedCmds) ∧
  ((List.range 256).filter fun n => decide (BitVec.ofNat 8 n ∉ assignedCmds)).length = 246 ∧
  (0x00 : Byte) ∉ assignedCmds ∧ (0xFF : Byte) ∉ assignedCmds

/-- R81: the ten CMD bytes, written out, decode to their requests. -/
def Obligations.CmdBytesDecode : Prop :=
  decodeTableWord 8 0x10 = some (.init 0 0 0 0) ∧ decodeTableWord 8 0x11 = some .destroy ∧
  decodeTableWord 8 0x20 = some .rdid ∧ decodeTableWord 8 0x21 = some .getcap ∧ decodeTableWord 8 0x30 = some .rdsr ∧
  decodeTableWord 8 0x31 = some (.wrsr 0) ∧ decodeTableWord 8 0x32 = some .wren ∧ decodeTableWord 8 0x33 = some .wrdi ∧
  decodeTableWord 8 0x40 = some (.write 0 false []) ∧ decodeTableWord 8 0x41 = some (.read 0 0) ∧
  decodeTableWord 8 0x00 = none ∧ decodeTableWord 8 0xFF = none

/-- R90, R91: the textual form of every well-formed request is read back as that request, and `WRITE_ENABLE e` stands for WREN
or WRDI. The lexical details of a line are the model's choice (log entry 18). -/
def Obligations.AssemblerFormsReadBack : Prop :=
  (∀ i : Instr, i.wellFormed = true → Asm.request (Asm.form i).1 (Asm.form i).2 = some i) ∧
  ∀ e : Bool, Asm.request .writeEnable [.flag e] = some (if e then .wren else .wrdi)

/-! ### Operand assembly -/

/-- R52, R83: the header of an address frame is the op-code and the low two or three address bytes, most significant first. -/
def Obligations.FrameHeaderIsBigEndian : Prop :=
  ∀ (op : Byte) (a : U32),
    frameHeader op a 3 = [op, a.extractLsb' 8 8, a.extractLsb' 0 8] ∧
    frameHeader op a 4 = [op, a.extractLsb' 16 8, a.extractLsb' 8 8, a.extractLsb' 0 8]

/-- R54, R24: the identifier is the four bytes after the dummy byte, little-endian, and its density field is `rx[3]`. -/
def Obligations.IdentifierIsLittleEndian : Prop :=
  ∀ b0 b1 b2 b3 b4 : Byte,
    (idFromReply [b0, b1, b2, b3, b4]).toNat =
      b1.toNat + b2.toNat * 2 ^ 8 + b3.toNat * 2 ^ 16 + b4.toNat * 2 ^ 24 ∧
    dens (idFromReply [b0, b1, b2, b3, b4]) = b3

/-- R133: the width is 4 when the density, as an unsigned number, exceeds 3, and 3 otherwise. -/
def Obligations.WidthIsChosenByDensity : Prop :=
  ∀ d : Byte, (3 < d.toNat → widthOf d = .w4) ∧ (d.toNat ≤ 3 → widthOf d = .w3)

/-- R88: the length of every frame, from the request and the width alone. -/
def Obligations.FrameLengths : Prop :=
  ∀ (p : Config) (h : Token) (w : Afw) (i : Instr) (c : Call) (tx : Bytes), w ≠ .unset →
    readyCall p h w i = some c → c.frame = some tx →
    tx.length = match i with
      | .wren => 1
      | .wrdi => 1
      | .rdsr => 2
      | .wrsr _ => 2
      | .rdid => 5
      | .write _ _ d => w.code + d.length
      | .read _ n => w.code + n.toInt.toNat
      | _ => 0

/-- R51: address bits above the frame's width are dropped with no error: two WRITEs, and two READs, whose addresses agree in
the low `8 (AFW - 1)` bits complete in the same next state. -/
def Obligations.HighAddressBitsAreDropped : Prop :=
  ∀ (s t : State) (a b : U32), s.afw ≠ .unset →
    a.toNat % 2 ^ (8 * (s.afw.code - 1)) = b.toNat % 2 ^ (8 * (s.afw.code - 1)) → t.seq = .idle →
    (∀ p d, exec (.write a p d) s = .next t → exec (.write b p d) s = .next t) ∧
    (∀ n, exec (.read a n) s = .next t → exec (.read b n) s = .next t)

/-! ### Steps -/

/-- R30, R81: at IDLE a step accepts the request on the port and is `exec` of what it decodes to. That a request is accepted in the
machine step that runs its step 0 is the model's reading of R27 (DEDUCED, log entry 3). The second clause is the same for a
request placed by `withFetchWord`, which is the model's own (log entry 16). -/
def Obligations.StepRunsTheDecodedRequest : Prop :=
  (∀ (s : State) (q : HostReq) (rest : List HostReq) (i : Instr),
    s.rst = false → s.seq = .idle → s.host = q :: rest → decode q = .ok i →
    step s = exec i { s with host := rest }) ∧
  (∀ (s : State) (nbits w : Nat) (i : Instr), decodeTableWord nbits w = some i →
    step (s.withFetchWord nbits w) = exec i { s with rst := false, seq := .idle, call := none, rx := none })

/-- R30: while the sequencer is busy the step is the running request's, and the host's requests are held as they are. -/
def Obligations.BusySequencerHoldsTheHost : Prop :=
  ∀ (s : State) (i : Instr) (k : Nat), s.rst = false → s.seq = .busy i k →
    step s = exec i s ∧ ∀ t, step s = .next t → t.host = s.host

/-- R231: with no request on the port CMDENC waits. -/
def Obligations.IdleWithoutRequestWaits : Prop :=
  ∀ s : State, s.rst = false → s.seq = .idle → s.host = [] → step s = .next s

/-- R206: a request whose CMD is reserved makes no transport call and no register write, and answers ERR 6: "The spec adds it
[decision: see 92_eei_decisions.md D4]". -/
def Obligations.ReservedCmdIsIllegalRequest : Prop :=
  Err.illegalRequest.code = 6 ∧
  ∀ (s : State) (q : HostReq) (rest : List HostReq),
    s.rst = false → s.seq = .idle → s.host = q :: rest → q.cmd ∉ assignedCmds →
    step s = .next { s with
      host := rest, seq := .idle, call := none, rx := none, resps := s.resps ++ [{ err := .illegalRequest }] }

/-- R230: on reset every register takes its reset value and no transport call is made; a handle that was open is not closed.
The state right after power-up has the same registers. The values are "the spec's own choice [decision: see
92_eei_decisions.md D21]". With no call in flight the environment, the chip in it, is untouched (R233); with one in flight nothing
is said of it here (R232, log entry 12). That the step sees to the reset line, so that it is inactive afterwards, is the model's
choice (log entry 13), and `failCode` is the model's own field (log entry 20). -/
def Obligations.ResetClearsTheRegisters : Prop :=
  (∀ s : State, s.rst = true →
    ∃ t, step s = .next t ∧ t.life = .unbound ∧ t.afw = .unset ∧ t.hnd = none ∧ t.id = 0 ∧ t.cfg = {} ∧ t.seq = .idle ∧
      t.failCode = 0 ∧ t.call = none ∧ t.rx = none ∧ t.rst = false ∧ t.trace = s.trace ∧ t.resps = s.resps ∧
      t.host = s.host ∧ t.par = s.par ∧ (s.call = none → t.env = s.env)) ∧
  State.reset.life = .unbound ∧ State.reset.afw = .unset ∧ State.reset.hnd = none ∧ State.reset.id = 0 ∧
  State.reset.cfg = {} ∧ State.reset.seq = .idle ∧ State.reset.call = none ∧ State.reset.rx = none

/-- R232: a reset in mid-request ends it with no response, whichever call is in flight, a `Close` too. That the transport answers
by free draws afterwards is the model's choice (log entry 12). -/
def Obligations.ResetAbandonsTheRequest : Prop :=
  ∀ (s : State) (i : Instr) (k : Nat) (c : Call), s.rst = true → s.seq = .busy i k → s.call = some c →
    ∃ t, step s = .next t ∧ t.seq = .idle ∧ t.resps = s.resps ∧ t.trace = s.trace ∧ t.call = none ∧
      t.handle = Handle.empty ∧ t.env.link = .draws

/-! ### The requests -/

/-- R110 step 0, R27: INIT closes a held handle, and once that is done unbinds, resolves the configuration with the clock clamped,
and goes to step 1. A `Close` that is not done waits on the port, and nothing is unbound yet; one that the transport never
completes has no meaning (I20, log entry 6). That step 0 takes a machine step of its own where no handle is held, and that a step
goes on while the call waits, are the model's (log entries 3 and 5). -/
def Obligations.InitReleasesTheHandle : Prop :=
  ∀ (bus cs : U32) (g : I32) (clk : U32) (s : State), s.seq = .idle ∨ s.seq = .busy (.init bus cs g clk) 0 →
    let cfg : BusCfg :=
      { bus := bus, cs := cs, csGpio := g, clkHz := BitVec.ofNat 32 (min clk.toNat s.par.clkMaxHz), bits := 8, mode := 0,
        order := .msbFirst }
    (s.hnd = none → exec (.init bus cs g clk) s = .next { s with
      life := .unbound, hnd := none, afw := .unset, id := 0, cfg := cfg, seq := .busy (.init bus cs g clk) 1 }) ∧
    (∀ h e, s.hnd = some h → s.env.close = (.done, e) → exec (.init bus cs g clk) s = .next { s with
      env := e, life := .unbound, hnd := none, afw := .unset, id := 0, cfg := cfg, seq := .busy (.init bus cs g clk) 1,
      call := none, trace := s.trace ++ [⟨.close h, .closed⟩] }) ∧
    (∀ h e, s.hnd = some h → s.env.close = (.waits, e) → exec (.init bus cs g clk) s = .next { s with
      env := e, seq := .busy (.init bus cs g clk) 0, call := some (.close h) }) ∧
    (∀ h e, s.hnd = some h → s.env.close = (.never, e) → exec (.init bus cs g clk) s = .refused .transportDuty)

/-- R110 step 1, R113 (a): `Open(CFG)` gives the handle, or ends INIT with the reset value, the transport's code, and neither
an identifier transfer nor a `Close`; unanswered, it waits (log entry 5). -/
def Obligations.InitOpensTheTransport : Prop :=
  ∀ (bus cs : U32) (g : I32) (clk : U32) (s : State) (e : Env), s.seq = .busy (.init bus cs g clk) 1 →
    (∀ h, s.env.openBus = (.ok h, e) → exec (.init bus cs g clk) s = .next { s with
      env := e, hnd := some h, seq := .busy (.init bus cs g clk) 2, call := none,
      trace := s.trace ++ [⟨.openBus s.cfg, .opened h⟩] }) ∧
    (∀ c, s.env.openBus = (.err c, e) → exec (.init bus cs g clk) s = .next { s with
      env := e, life := .unbound, hnd := none, afw := .unset, id := 0, cfg := {}, seq := .idle, call := none, rx := none,
      trace := s.trace ++ [⟨.openBus s.cfg, .failed c⟩],
      resps := s.resps ++ [{ err := .initializationFailure, xcode := c }] }) ∧
    (s.env.openBus = (.silent, e) → exec (.init bus cs g clk) s = .next { s with
      env := e, seq := .busy (.init bus cs g clk) 1, call := some (.openBus s.cfg) })

/-- R110 step 2, R112, R113 (b), R133: the identifier read makes the handle READY with the width its density selects; on a
failure the handle is closed once before the answer, and ends in its reset value. R27 makes that `Close` a step of its own, which
the model numbers 3 and before which it keeps the code in `failCode` (log entries 3 and 20).
An unanswered call waits in its step: that a step then goes on is the model's choice (log entry 5). -/
def Obligations.InitReadsTheIdentifier : Prop :=
  ∀ (bus cs : U32) (g : I32) (clk : U32) (s : State) (h : Token) (e : Env), s.hnd = some h →
    (s.seq = .busy (.init bus cs g clk) 2 →
      (∀ c rx, s.env.xferFull s.par [s.par.opcRdid, 0, 0, 0, 0] = (.ok (c, rx), e) → rx.length = 5 →
        exec (.init bus cs g clk) s = .next { s with
          env := e, id := idFromReply rx, afw := if 3 < (dens (idFromReply rx)).toNat then .w4 else .w3, life := .ready,
          seq := .idle, call := none, rx := none,
          trace := s.trace ++ [⟨.xferFull h [s.par.opcRdid, 0, 0, 0, 0], .full c rx⟩],
          resps := s.resps ++ [{ idv := idFromReply rx }] }) ∧
      (∀ c, s.env.xferFull s.par [s.par.opcRdid, 0, 0, 0, 0] = (.err c, e) →
        exec (.init bus cs g clk) s = .next { s with
          env := e, failCode := c, seq := .busy (.init bus cs g clk) 3, call := none,
          trace := s.trace ++ [⟨.xferFull h [s.par.opcRdid, 0, 0, 0, 0], .failed c⟩] }) ∧
      (s.env.xferFull s.par [s.par.opcRdid, 0, 0, 0, 0] = (.silent, e) →
        exec (.init bus cs g clk) s = .next { s with
          env := e, seq := .busy (.init bus cs g clk) 2, call := some (.xferFull h [s.par.opcRdid, 0, 0, 0, 0]) })) ∧
    (s.seq = .busy (.init bus cs g clk) 3 →
      (s.env.close = (.done, e) → exec (.init bus cs g clk) s = .next { s with
        env := e, life := .unbound, hnd := none, afw := .unset, id := 0, cfg := {}, failCode := 0, seq := .idle,
        call := none, rx := none, trace := s.trace ++ [⟨.close h, .closed⟩],
        resps := s.resps ++ [{ err := .initializationFailure, xcode := s.failCode }] }) ∧
      (s.env.close = (.waits, e) → exec (.init bus cs g clk) s = .next { s with
        env := e, seq := .busy (.init bus cs g clk) 3, call := some (.close h) }))

/-- R110 whole: INIT on an idle CMDENC with a transport that opens and answers runs to READY, with one response and the calls
`Open` and `XferFull` after the `Close` of a held handle, which is done at once here. That INIT then takes three machine steps is
log entry 3. -/
def Obligations.InitRunsToReady : Prop :=
  ∀ (bus cs : U32) (g : I32) (clk : U32) (s : State) (h : Token) (c : I32) (rx : Bytes) (e0 e1 e2 : Env),
    s.seq = .idle → (s.hnd = none ∧ e0 = s.env ∨ s.hnd ≠ none ∧ s.env.close = (.done, e0)) → e0.openBus = (.ok h, e1) →
    e1.xferFull s.par [s.par.opcRdid, 0, 0, 0, 0] = (.ok (c, rx), e2) → rx.length = 5 →
    let cfg : BusCfg :=
      { bus := bus, cs := cs, csGpio := g, clkHz := BitVec.ofNat 32 (min clk.toNat s.par.clkMaxHz), bits := 8, mode := 0,
        order := .msbFirst }
    ∃ s1 s2, exec (.init bus cs g clk) s = .next s1 ∧ exec (.init bus cs g clk) s1 = .next s2 ∧
      exec (.init bus cs g clk) s2 = .next { s with
        env := e2, life := .ready, id := idFromReply rx,
        afw := if 3 < (dens (idFromReply rx)).toNat then .w4 else .w3, hnd := some h, cfg := cfg,
        seq := .idle, call := none, rx := none,
        trace := s.trace ++ (match s.hnd with | none => [] | some old => [⟨.close old, .closed⟩]) ++
          [⟨.openBus cfg, .opened h⟩, ⟨.xferFull h [s.par.opcRdid, 0, 0, 0, 0], .full c rx⟩],
        resps := s.resps ++ [{ idv := idFromReply rx }] }

/-- R115, R27, R33 (b): DESTROY closes a held handle, leaves the reset value, and always answers ERR 0; on a handle that is not held
it makes no call. A `Close` that is not done waits on the port with the handle as it was; one that the transport never completes
has no meaning (I20, log entry 6). Over a transport that keeps its duties by construction a waiting DESTROY ends after some number
of steps. That a step goes on while the call waits is the model's choice (log entry 5). -/
def Obligations.DestroyReleasesTheHandle : Prop :=
  (∀ s : State,
    (s.hnd = none → exec .destroy s = .next { s with
      life := .unbound, hnd := none, afw := .unset, id := 0, cfg := {}, seq := .idle, call := none, rx := none,
      resps := s.resps ++ [{}] }) ∧
    (∀ h e, s.hnd = some h → s.env.close = (.done, e) → exec .destroy s = .next { s with
      env := e, life := .unbound, hnd := none, afw := .unset, id := 0, cfg := {}, seq := .idle, call := none, rx := none,
      trace := s.trace ++ [⟨.close h, .closed⟩], resps := s.resps ++ [{}] }) ∧
    (∀ h e, s.hnd = some h → s.env.close = (.waits, e) → exec .destroy s = .next { s with
      env := e, seq := .busy .destroy 0, call := some (.close h) }) ∧
    (∀ h e, s.hnd = some h → s.env.close = (.never, e) → exec .destroy s = .refused .transportDuty)) ∧
  ∀ (s : State) (h : Token), s.rst = false → s.seq = .busy .destroy 0 → s.hnd = some h → s.env.link.dutiful →
    ∃ n t, stepN n s = .next t ∧ t.seq = .idle ∧ t.handle = Handle.empty ∧ t.resps = s.resps ++ [{ err := .ok }] ∧
      t.trace = s.trace ++ [⟨.close h, .closed⟩] ∧ t.env.chip = s.env.chip

/-- R130: RDID writes the identifier and answers it; a failed transfer leaves it and answers TransferError; a handle that is
not READY answers InvalidHandle with no call.
An unanswered call waits in its step: that a step then goes on is the model's choice (log entry 5). -/
def Obligations.RdidReadsTheIdentifier : Prop :=
  ∀ s : State,
    (s.life = .unbound → exec .rdid s = .next { s with
      seq := .idle, call := none, rx := none, resps := s.resps ++ [{ err := .invalidHandle }] }) ∧
    ∀ (h : Token) (e : Env), s.life = .ready → s.hnd = some h →
      (∀ c rx, s.env.xferFull s.par [s.par.opcRdid, 0, 0, 0, 0] = (.ok (c, rx), e) → rx.length = 5 →
        exec .rdid s = .next { s with
          env := e, id := idFromReply rx, seq := .idle, call := none, rx := none,
          trace := s.trace ++ [⟨.xferFull h [s.par.opcRdid, 0, 0, 0, 0], .full c rx⟩],
          resps := s.resps ++ [{ idv := idFromReply rx }] }) ∧
      (∀ c, s.env.xferFull s.par [s.par.opcRdid, 0, 0, 0, 0] = (.err c, e) →
        exec .rdid s = .next { s with
          env := e, seq := .idle, call := none, rx := none,
          trace := s.trace ++ [⟨.xferFull h [s.par.opcRdid, 0, 0, 0, 0], .failed c⟩],
          resps := s.resps ++ [{ err := .transferError, xcode := c }] }) ∧
      (s.env.xferFull s.par [s.par.opcRdid, 0, 0, 0, 0] = (.silent, e) →
        exec .rdid s = .next { s with
          env := e, seq := .busy .rdid 0, call := some (.xferFull h [s.par.opcRdid, 0, 0, 0, 0]) })

/-- R180: GETCAP answers `2 ^ (DENS + 10)` where that fits in `CAP_BITS` bits, and some value of that width otherwise; it makes
no transport call. -/
def Obligations.GetcapComputesTheCapacity : Prop :=
  ∀ s : State,
    (s.life = .unbound → exec .getcap s = .next { s with
      seq := .idle, call := none, rx := none, resps := s.resps ++ [{ err := .invalidHandle }] }) ∧
    (s.life = .ready → 2 ^ ((dens s.id).toNat + 10) < 2 ^ s.par.capBits →
      exec .getcap s = .next { s with
        seq := .idle, call := none, rx := none, resps := s.resps ++ [{ capv := 2 ^ ((dens s.id).toNat + 10) }] }) ∧
    (s.life = .ready → 2 ^ s.par.capBits ≤ 2 ^ ((dens s.id).toNat + 10) →
      ∃ v n, v < 2 ^ s.par.capBits ∧
        exec .getcap s = .next { s with
          free := n, seq := .idle, call := none, rx := none, resps := s.resps ++ [{ capv := v }] })

/-- R181: density, capacity and width, row by row. -/
def Obligations.CapacityTable : Prop :=
  ∀ row ∈ [((0 : Byte), 1024, Afw.w3), (1, 2048, .w3), (2, 4096, .w3), (3, 8192, .w3), (4, 16384, .w4), (5, 32768, .w4),
      (6, 65536, .w4), (7, 131072, .w4), (14, 16777216, .w4), (15, 33554432, .w4), (53, 2 ^ 63, .w4)],
    capacity row.1 = row.2.1 ∧ widthOf row.1 = row.2.2

/-- R140, R141: RDSR answers the second reply byte, and 0xFF with no error for a failed transfer and for a handle that is not
READY.
An unanswered call waits in its step: that a step then goes on is the model's choice (log entry 5). -/
def Obligations.RdsrReadsTheStatus : Prop :=
  ∀ s : State,
    (s.life = .unbound → exec .rdsr s = .next { s with
      seq := .idle, call := none, rx := none, resps := s.resps ++ [{ sr := 0xFF }] }) ∧
    ∀ (h : Token) (e : Env), s.life = .ready → s.hnd = some h →
      (∀ c b0 b1, s.env.xferFull s.par [s.par.opcRdsr, 0] = (.ok (c, [b0, b1]), e) →
        exec .rdsr s = .next { s with
          env := e, seq := .idle, call := none, rx := none,
          trace := s.trace ++ [⟨.xferFull h [s.par.opcRdsr, 0], .full c [b0, b1]⟩],
          resps := s.resps ++ [{ sr := b1 }] }) ∧
      (∀ c, s.env.xferFull s.par [s.par.opcRdsr, 0] = (.err c, e) →
        exec .rdsr s = .next { s with
          env := e, seq := .idle, call := none, rx := none,
          trace := s.trace ++ [⟨.xferFull h [s.par.opcRdsr, 0], .failed c⟩],
          resps := s.resps ++ [{ sr := 0xFF }] }) ∧
      (s.env.xferFull s.par [s.par.opcRdsr, 0] = (.silent, e) →
        exec .rdsr s = .next { s with
          env := e, seq := .busy .rdsr 0, call := some (.xferFull h [s.par.opcRdsr, 0]) })

/-- R142: WRSR sends its value unmasked and discards the byte count.
An unanswered call waits in its step: that a step then goes on is the model's choice (log entry 5). -/
def Obligations.WrsrSendsTheValue : Prop :=
  ∀ (v : Byte) (s : State),
    (s.life = .unbound → exec (.wrsr v) s = .next { s with
      seq := .idle, call := none, rx := none, resps := s.resps ++ [{ err := .invalidHandle }] }) ∧
    ∀ (h : Token) (e : Env), s.life = .ready → s.hnd = some h →
      (∀ n, s.env.xfer s.par [s.par.opcWrsr, v] = (.ok n, e) → exec (.wrsr v) s = .next { s with
        env := e, seq := .idle, call := none, rx := none,
        trace := s.trace ++ [⟨.xfer h [s.par.opcWrsr, v], .count n⟩], resps := s.resps ++ [{}] }) ∧
      (∀ c, s.env.xfer s.par [s.par.opcWrsr, v] = (.err c, e) → exec (.wrsr v) s = .next { s with
        env := e, seq := .idle, call := none, rx := none,
        trace := s.trace ++ [⟨.xfer h [s.par.opcWrsr, v], .failed c⟩],
        resps := s.resps ++ [{ err := .transferError, xcode := c }] }) ∧
      (s.env.xfer s.par [s.par.opcWrsr, v] = (.silent, e) → exec (.wrsr v) s = .next { s with
        env := e, seq := .busy (.wrsr v) 0, call := some (.xfer h [s.par.opcWrsr, v]) })

/-- R144: WREN sends its one op-code byte.
An unanswered call waits in its step: that a step then goes on is the model's choice (log entry 5). -/
def Obligations.WrenSendsItsOpcode : Prop :=
  ∀ s : State,
    (s.life = .unbound → exec .wren s = .next { s with
      seq := .idle, call := none, rx := none, resps := s.resps ++ [{ err := .invalidHandle }] }) ∧
    ∀ (h : Token) (e : Env), s.life = .ready → s.hnd = some h →
      (∀ n, s.env.xfer s.par [s.par.opcWren] = (.ok n, e) → exec .wren s = .next { s with
        env := e, seq := .idle, call := none, rx := none,
        trace := s.trace ++ [⟨.xfer h [s.par.opcWren], .count n⟩], resps := s.resps ++ [{}] }) ∧
      (∀ c, s.env.xfer s.par [s.par.opcWren] = (.err c, e) → exec .wren s = .next { s with
        env := e, seq := .idle, call := none, rx := none,
        trace := s.trace ++ [⟨.xfer h [s.par.opcWren], .failed c⟩],
        resps := s.resps ++ [{ err := .transferError, xcode := c }] }) ∧
      (s.env.xfer s.par [s.par.opcWren] = (.silent, e) → exec .wren s = .next { s with
        env := e, seq := .busy .wren 0, call := some (.xfer h [s.par.opcWren]) })

/-- R145: WRDI sends its one op-code byte.
An unanswered call waits in its step: that a step then goes on is the model's choice (log entry 5). -/
def Obligations.WrdiSendsItsOpcode : Prop :=
  ∀ s : State,
    (s.life = .unbound → exec .wrdi s = .next { s with
      seq := .idle, call := none, rx := none, resps := s.resps ++ [{ err := .invalidHandle }] }) ∧
    ∀ (h : Token) (e : Env), s.life = .ready → s.hnd = some h →
      (∀ n, s.env.xfer s.par [s.par.opcWrdi] = (.ok n, e) → exec .wrdi s = .next { s with
        env := e, seq := .idle, call := none, rx := none,
        trace := s.trace ++ [⟨.xfer h [s.par.opcWrdi], .count n⟩], resps := s.resps ++ [{}] }) ∧
      (∀ c, s.env.xfer s.par [s.par.opcWrdi] = (.err c, e) → exec .wrdi s = .next { s with
        env := e, seq := .idle, call := none, rx := none,
        trace := s.trace ++ [⟨.xfer h [s.par.opcWrdi], .failed c⟩],
        resps := s.resps ++ [{ err := .transferError, xcode := c }] }) ∧
      (s.env.xfer s.par [s.par.opcWrdi] = (.silent, e) → exec .wrdi s = .next { s with
        env := e, seq := .busy .wrdi 0, call := some (.xfer h [s.par.opcWrdi]) })

/-- R160, R208: WRITE checks READY, the buffer, its length and the frame's length in that order, then sends header and data and
answers the transport's byte count.
An unanswered call waits in its step: that a step then goes on is the model's choice (log entry 5). -/
def Obligations.WriteSendsTheData : Prop :=
  ∀ (a : U32) (p : Bool) (d : Bytes) (s : State),
    (s.life = .unbound → exec (.write a p d) s = .next { s with
      seq := .idle, call := none, rx := none, resps := s.resps ++ [{ err := .invalidHandle }] }) ∧
    (s.life = .ready → p = false ∨ d = [] → exec (.write a p d) s = .next { s with
      seq := .idle, call := none, rx := none, resps := s.resps ++ [{ err := .invalidArgument }] }) ∧
    (s.life = .ready → p = true → d ≠ [] → s.afw ≠ .unset → s.par.fits (s.afw.code + d.length) = false →
      exec (.write a p d) s = .next { s with
        seq := .idle, call := none, rx := none, resps := s.resps ++ [{ err := .allocationFailure }] }) ∧
    ∀ (h : Token) (e : Env), s.life = .ready → p = true → d ≠ [] → s.afw ≠ .unset →
      s.par.fits (s.afw.code + d.length) = true → s.hnd = some h →
      let tx := s.par.opcWrite :: addrBytes a (s.afw.code - 1) ++ d
      (∀ n, s.env.xfer s.par tx = (.ok n, e) → exec (.write a p d) s = .next { s with
        env := e, seq := .idle, call := none, rx := none, trace := s.trace ++ [⟨.xfer h tx, .count n⟩],
        resps := s.resps ++ [{ res := n }] }) ∧
      (∀ c, s.env.xfer s.par tx = (.err c, e) → exec (.write a p d) s = .next { s with
        env := e, seq := .idle, call := none, rx := none, trace := s.trace ++ [⟨.xfer h tx, .failed c⟩],
        resps := s.resps ++ [{ err := .transferError, xcode := c }] }) ∧
      (s.env.xfer s.par tx = (.silent, e) → exec (.write a p d) s = .next { s with
        env := e, seq := .busy (.write a p d) 0, call := some (.xfer h tx) })

/-- R161, R208: READ checks READY, its length and the frame's length in that order, then sends header and fillers and answers
the transport's result code and the `LEN` reply bytes after the header.
An unanswered call waits in its step: that a step then goes on is the model's choice (log entry 5). -/
def Obligations.ReadReturnsThePayload : Prop :=
  ∀ (a : U32) (len : I32) (s : State),
    (s.life = .unbound → exec (.read a len) s = .next { s with
      seq := .idle, call := none, rx := none, resps := s.resps ++ [{ err := .invalidHandle }] }) ∧
    (s.life = .ready → len.toInt ≤ 0 → exec (.read a len) s = .next { s with
      seq := .idle, call := none, rx := none, resps := s.resps ++ [{ err := .invalidArgument }] }) ∧
    (s.life = .ready → 0 < len.toInt → s.afw ≠ .unset → s.par.fits (s.afw.code + len.toInt.toNat) = false →
      exec (.read a len) s = .next { s with
        seq := .idle, call := none, rx := none, resps := s.resps ++ [{ err := .allocationFailure }] }) ∧
    ∀ (h : Token) (e : Env), s.life = .ready → 0 < len.toInt → s.afw ≠ .unset →
      s.par.fits (s.afw.code + len.toInt.toNat) = true → s.hnd = some h →
      let tx := s.par.opcRead :: addrBytes a (s.afw.code - 1) ++ List.replicate len.toInt.toNat 0x00
      (∀ c head data, s.env.xferFull s.par tx = (.ok (c, head ++ data), e) → head.length = s.afw.code →
        data.length = len.toInt.toNat → exec (.read a len) s = .next { s with
          env := e, seq := .idle, call := none, rx := none, trace := s.trace ++ [⟨.xferFull h tx, .full c (head ++ data)⟩],
          resps := s.resps ++ [{ res := c, data := data }] }) ∧
      (∀ c, s.env.xferFull s.par tx = (.err c, e) → exec (.read a len) s = .next { s with
        env := e, seq := .idle, call := none, rx := none, trace := s.trace ++ [⟨.xferFull h tx, .failed c⟩],
        resps := s.resps ++ [{ err := .transferError, xcode := c }] }) ∧
      (s.env.xferFull s.par tx = (.silent, e) → exec (.read a len) s = .next { s with
        env := e, seq := .busy (.read a len) 0, call := some (.xferFull h tx) })

/-- I20: a transport that breaks its duties has no meaning, whichever request made the call: a full-duplex answer of the wrong length
to a READY request or to INIT's identifier read, and a `Close` after a failed read that is never completed. The refusal
`transportDuty` says so (log entry 6). For the other two places of `Close` see InitReleasesTheHandle and
DestroyReleasesTheHandle. -/
def Obligations.WrongReplyLengthIsRefused : Prop :=
  (∀ (s : State) (i : Instr) (h : Token) (tx : Bytes) (c : I32) (rx : Bytes) (e : Env),
    s.life = .ready → s.hnd = some h → readyCall s.par h s.afw i = some (.xferFull h tx) →
    s.sendable i →
    s.env.xferFull s.par tx = (.ok (c, rx), e) → rx.length ≠ tx.length →
    exec i s = .refused .transportDuty) ∧
  (∀ (bus cs : U32) (g : I32) (clk : U32) (s : State) (h : Token) (c : I32) (rx : Bytes) (e : Env),
    s.seq = .busy (.init bus cs g clk) 2 → s.hnd = some h →
    s.env.xferFull s.par [s.par.opcRdid, 0, 0, 0, 0] = (.ok (c, rx), e) → rx.length ≠ 5 →
    exec (.init bus cs g clk) s = .refused .transportDuty) ∧
  ∀ (bus cs : U32) (g : I32) (clk : U32) (s : State) (h : Token) (e : Env),
    s.seq = .busy (.init bus cs g clk) 3 → s.hnd = some h → s.env.close = (.never, e) →
    exec (.init bus cs g clk) s = .refused .transportDuty

/-! ### Rules about every request -/

/-- R164: a request that answers InvalidArgument has invoked no transport; WRITE with no data and READ of no bytes on a READY
handle are such requests. -/
def Obligations.EmptyTransfersInvokeNoTransport : Prop :=
  (∀ (s t : State) (i : Instr) (r : Response), exec i s = .next t → t.resps = s.resps ++ [r] →
    r.err = .invalidArgument → t.trace = s.trace ∧ t.call = none ∧ t.env = s.env) ∧
  ∀ (s : State) (a : U32) (i : Instr), s.life = .ready → i = .write a true [] ∨ i = .read a 0 →
    ∃ t, exec i s = .next t ∧ t.trace = s.trace ∧ t.call = none ∧ t.env = s.env ∧
      t.resps = s.resps ++ [{ err := .invalidArgument }]

/-- R141: RDSR never reports an error: whatever the transport answers, the response that ends it has ERR 0, and after a failed
transfer SR 0xFF. -/
def Obligations.RdsrNeverReportsAnError : Prop :=
  ∀ s t : State, exec .rdsr s = .next t → t.seq = .idle →
    ∃ r, t.resps = s.resps ++ [r] ∧ r.err = .ok ∧ r.xcode = 0 ∧
      ∀ call c, t.trace = s.trace ++ [⟨call, .failed c⟩] → r.sr = 0xFF

/-- R200: the error codes. The numbers are "the spec's own choice [decision: see 92_eei_decisions.md D6]". -/
def Obligations.ErrorCodesAreTheTable : Prop :=
  Err.code .ok = 0 ∧ Err.code .invalidHandle = 1 ∧ Err.code .invalidArgument = 2 ∧ Err.code .allocationFailure = 3 ∧
  Err.code .transferError = 4 ∧ Err.code .initializationFailure = 5 ∧ Err.code .illegalRequest = 6 ∧
  ∀ e : Err, e.code.toNat ≤ 6

/-- R34, R203, R205: a transport's code is passed on as it is and not interpreted: a byte count to the answer of WRITE, a result code
to the answer of READ, a failure code to `XCODE`; a success has no error whatever its code, and `RES` is 0 where the request does
not set it (R12, R35). The exception is RDSR, which has no error and so `XCODE` 0 after a failure (R141). INIT's failed identifier
read is answered a step later, with the code kept in `failCode` (log entries 3 and 20). -/
def Obligations.CodesPassVerbatim : Prop :=
  (∀ (s t : State) (i : Instr) (r : Response), exec i s = .next t → t.resps = s.resps ++ [r] →
    (∀ call n, t.trace = s.trace ++ [⟨call, .count n⟩] →
      r.err = .ok ∧ r.xcode = 0 ∧ r.res = match i with | .write _ _ _ => n | _ => 0) ∧
    (∀ call c rx, t.trace = s.trace ++ [⟨call, .full c rx⟩] →
      r.err = .ok ∧ r.xcode = 0 ∧ r.res = match i with | .read _ _ => c | _ => 0) ∧
    (∀ call c, t.trace = s.trace ++ [⟨call, .failed c⟩] → r.res = 0 ∧ r.xcode = if i = .rdsr then 0 else c) ∧
    (∀ h, t.trace = s.trace ++ [⟨.close h, .closed⟩] → r.res = 0 ∧ r.xcode = if i = .destroy then 0 else s.failCode)) ∧
  ∀ (s t : State) (i : Instr) (call : Call) (c : I32), exec i s = .next t → t.resps = s.resps →
    t.trace = s.trace ++ [⟨call, .failed c⟩] → t.failCode = c ∧ t.seq = .busy i 3

/-- R200: a request that ends gives exactly one response, whose error is one R200 lets that request raise and whose `XCODE` is
0 unless the error is a transport's; a request that is still busy has given none. -/
def Obligations.OneResponseForEachRequest : Prop :=
  ∀ (s t : State) (i : Instr), exec i s = .next t →
    (t.seq = .idle ∧ t.call = none ∧ t.rx = none ∧
      ∃ r, t.resps = s.resps ++ [r] ∧ r.err.raisedBy i = true ∧
        (r.xcode ≠ 0 → r.err = .transferError ∨ r.err = .initializationFailure)) ∨
    ((∃ k, t.seq = .busy i k) ∧ t.resps = s.resps)

/-- R207: an error leaves the handle's registers as they were, except that INIT's failures leave the reset value. -/
def Obligations.ErrorsLeaveTheRegisters : Prop :=
  ∀ (s t : State) (i : Instr) (r : Response), exec i s = .next t → t.resps = s.resps ++ [r] → r.err ≠ .ok →
    t.handle = if r.err = .initializationFailure then Handle.empty else s.handle

/-- R29: which registers each request can write. Only INIT and DESTROY write `LIFE`, `AFW`, `HND` and `CFG`; only they and RDID
write `ID`; none writes a parameter, the reset line or the host's requests. Of the model's own fields only GETCAP takes a free
capacity and only INIT keeps a failure code (log entries 7 and 20). -/
def Obligations.AccessRights : Prop :=
  ∀ (s t : State) (i : Instr), exec i s = .next t →
    t.par = s.par ∧ t.rst = s.rst ∧ t.host = s.host ∧ (i ≠ .getcap → t.free = s.free) ∧
    (isLifecycle i = false ∨ i = .destroy → t.failCode = s.failCode) ∧
    (isLifecycle i = false → t.life = s.life ∧ t.afw = s.afw ∧ t.hnd = s.hnd ∧ t.cfg = s.cfg ∧ (i ≠ .rdid → t.id = s.id))

/-- R27, R36, R110, R115: the transitions of the addressing-width state machine, for every request and for reset. INIT's release
step and DESTROY make theirs when they end: while their `Close` waits the width is unchanged. R36 speaks of no steps. That INIT's
release is a machine step of its own also with no handle held, and that a failed identifier read is answered from a later step, are
the model's reading (DEDUCED, log entry 3). That a step goes on while a `Close` waits is the model's choice (log entry 5). -/
def Obligations.WidthTransitions : Prop :=
  ∀ s t : State, step s = .next t →
    (s.rst = true → t.afw = .unset) ∧
    (∀ i, s.rst = false → s.runs i →
      (isLifecycle i = false → t.afw = s.afw) ∧
      (i = .destroy → t.seq = .idle ∧ t.afw = .unset ∨ t.seq = .busy i 0 ∧ t.afw = s.afw) ∧
      (∀ bus cs g clk, i = .init bus cs g clk →
        (s.seq.position = 0 → t.seq = .busy i 1 ∧ t.afw = .unset ∨ t.seq = .busy i 0 ∧ t.afw = s.afw) ∧
        (s.seq.position = 1 → s.afw = .unset → t.afw = .unset) ∧
        (2 ≤ s.seq.position → t.resps = s.resps → t.afw = s.afw) ∧
        (∀ r, 2 ≤ s.seq.position → t.resps = s.resps ++ [r] →
          (r.err = .ok → t.afw = if 3 < (dens t.id).toNat then .w4 else .w3) ∧ (r.err ≠ .ok → t.afw = .unset)))) ∧
    (s.rst = false → (∀ i, ¬ s.runs i) → t.afw = s.afw)

/-- R27, R37, R115: the transitions of the lifecycle, for every request and for reset. DESTROY makes its own when it ends: while its
`Close` waits the lifecycle is unchanged. R37 speaks of no steps. That DESTROY stands at step 0 until its `Close` is done is the
model's reading (DEDUCED, log entry 3). That a step goes on while it waits is the model's choice (log entry 5). -/
def Obligations.LifecycleTransitions : Prop :=
  ∀ s t : State, step s = .next t →
    (s.rst = true → t.life = .unbound) ∧
    (∀ i, s.rst = false → s.runs i →
      (isLifecycle i = false → t.life = s.life) ∧
      (i = .destroy → t.seq = .idle ∧ t.life = .unbound ∨ t.seq = .busy i 0 ∧ t.life = s.life) ∧
      (∀ bus cs g clk r, i = .init bus cs g clk → t.resps = s.resps ++ [r] →
        (r.err = .ok → t.life = .ready) ∧ (r.err ≠ .ok → t.life = .unbound))) ∧
    (s.rst = false → (∀ i, ¬ s.runs i) → t.life = s.life)

/-- R25: every call passes the token CMDENC holds, and none is made without one. -/
def Obligations.CallsPassTheHeldToken : Prop :=
  ∀ (s t : State) (i : Instr), exec i s = .next t →
    (∀ e ∈ t.trace.drop s.trace.length, ∀ h, e.call.token = some h → s.hnd = some h) ∧
    (∀ c h, s.call = none → t.call = some c → c.token = some h → s.hnd = some h)

/-- R71, R27, R209: a step answers at most one call, and leaves the calls answered before as they are, in their order. -/
def Obligations.CallsAreTotallyOrdered : Prop :=
  ∀ s t : State, step s = .next t → ∃ new, t.trace = s.trace ++ new ∧ new.length ≤ 1

/-- R85: a request other than INIT and DESTROY answers at most one call, the one of its row. -/
def Obligations.EachRequestMakesItsOneCall : Prop :=
  ∀ (s t : State) (i : Instr), isLifecycle i = false → exec i s = .next t →
    t.trace = s.trace ∨ ∃ h c r, s.hnd = some h ∧ readyCall s.par h s.afw i = some c ∧ t.trace = s.trace ++ [⟨c, r⟩]

/-- R82, R204: every frame on the port begins with one of the seven op-codes and is no longer than `FRAME_CAP`: a step from a
good state keeps that true of all calls answered. -/
def Obligations.FramesStayAllowed : Prop :=
  ∀ s t : State, s.Inv → s.traceOk → step s = .next t → t.traceOk

/-- I8: reply bytes that a request does not use cannot be seen: two answers that differ only in the dummy byte (RDID, RDSR) or
in the bytes of the header (READ) give the same registers and responses. -/
def Obligations.UnusedReplyBytesAreIgnored : Prop :=
  ∀ (s s' t t' : State) (e e' : Env) (c : I32) (rx rx' : Bytes) (h : Token) (i : Instr) (tx : Bytes),
    s.life = .ready → s.hnd = some h → readyCall s.par h s.afw i = some (.xferFull h tx) → s' = { s with env := s'.env } →
    s.env.xferFull s.par tx = (.ok (c, rx), e) → s'.env.xferFull s.par tx = (.ok (c, rx'), e') →
    (∀ a n, i = .read a n → rx.drop s.afw.code = rx'.drop s.afw.code) →
    ((∀ a n, i ≠ .read a n) → rx.drop 1 = rx'.drop 1) →
    exec i s = .next t → exec i s' = .next t' → t.handle = t'.handle ∧ t.resps = t'.resps

/-! ### The invariant -/

/-- R39: the invariant holds right after reset. Its parts about the chip, `failCode` and `env.closeLeft` rest on reset values that
are the model's choice (log entries 4, 10, 11 and 20). -/
def Obligations.InvariantAtReset : Prop :=
  State.reset.Inv ∧ State.reset.traceOk

/-- R21, R22, R25 to R28: every step keeps the invariant: at IDLE the handle is unbound in its reset value or READY with a token
and a width and no buffer exists; a busy sequencer stands at a step of its request with that step's call; `CFG`'s fixed fields
keep their values; the device's array keeps its canonical form. That INIT's last `Close` is step 3, and what holds of the model's
own fields `failCode` and `env.closeLeft`, are log entries 3, 20 and 4. -/
def Obligations.StepKeepsTheInvariant : Prop :=
  ∀ s t : State, s.Inv → step s = .next t → t.Inv

/-- From a good state no step faults, and with a transport that keeps its duties by construction every step goes on: the
machine's own faults and refusal stand only for states that no run reaches and for transports that break their duties (log entries
6 and 8). That a step goes on also when the transport leaves the call unanswered, where I7 says stuck, is the model's: it waits
(log entry 5). -/
def Obligations.GoodStatesAlwaysStep : Prop :=
  ∀ s : State, s.Inv → (∀ f, step s ≠ .fault f) ∧ (s.env.link.dutiful → ∃ t, step s = .next t ∧ t.env.link.dutiful)

/-- R25, R83: what no run reaches stops by name: a request that would call the transport with no token faults `noHandle`, and a
WRITE or READ that would build a frame with no width faults `noWidth`. That these states stop is the model's choice (log
entry 8). -/
def Obligations.MissingTokenOrWidthStopsByName : Prop :=
  (∀ (s : State) (i : Instr) (h : Token), s.life = .ready → s.hnd = none → (readyCall s.par h s.afw i).isSome = true →
    s.sendable i → exec i s = .fault .noHandle) ∧
  (∀ (s : State) (bus cs : U32) (g : I32) (clk : U32), s.seq = .busy (.init bus cs g clk) 2 → s.hnd = none →
    exec (.init bus cs g clk) s = .fault .noHandle) ∧
  (∀ (s : State) (bus cs : U32) (g : I32) (clk : U32), s.seq = .busy (.init bus cs g clk) 3 → s.hnd = none →
    exec (.init bus cs g clk) s = .fault .noHandle) ∧
  (∀ (s : State) (a : U32) (d : Bytes), s.life = .ready → s.afw = .unset → d ≠ [] →
    exec (.write a true d) s = .fault .noWidth) ∧
  ∀ (s : State) (a : U32) (n : I32), s.life = .ready → s.afw = .unset → 0 < n.toInt → exec (.read a n) s = .fault .noWidth

/-- R21: at IDLE in a good state, READY is the same as holding a token and a width. -/
def Obligations.IdleReadyMeansHandleAndWidth : Prop :=
  ∀ s : State, s.Inv → s.seq = .idle → (s.life = .ready ↔ s.hnd ≠ none ∧ (s.afw = .w3 ∨ s.afw = .w4))

/-! ### The reference device -/

/-- R163: on a READY handle with the reference transport, `WEL` set and a width that matches the chip, WRITE of any non-empty
data no longer than the chip and then READ of as many bytes answers that data. -/
def Obligations.WriteThenReadReturnsTheData : Prop :=
  ∀ (s : State) (h : Token) (a : U32) (d : Bytes),
    s.life = .ready → s.hnd = some h → s.par.wf = true → s.env.link = .reference [] → s.env.chip.memOk →
    s.env.chip.wel = true → s.afw.code = s.env.chip.ndev + 1 → d ≠ [] → d.length ≤ s.env.chip.cap → d.length < 2 ^ 31 →
    s.par.fits (s.afw.code + d.length) = true →
    ∃ t u r, exec (.write a true d) s = .next t ∧ exec (.read a (BitVec.ofNat 32 d.length)) t = .next u ∧
      u.resps = t.resps ++ [r] ∧ r.err = .ok ∧ r.data = d

/-- R65, R62: what an honoured WRITE of any length does to the device's array: byte `i` of the data at its address modulo the
capacity, unless a later byte of data longer than the array comes to the same address and overwrites it; every other byte as
before; and `WEL` cleared. -/
def Obligations.HonouredWriteStoresItsBlock : Prop :=
  ∀ (s t : State) (h : Token) (a : U32) (d : Bytes),
    s.life = .ready → s.hnd = some h → s.par.wf = true → s.env.link = .reference [] → s.env.chip.memOk →
    s.env.chip.wel = true → s.afw.code = s.env.chip.ndev + 1 → d ≠ [] →
    s.par.fits (s.afw.code + d.length) = true → exec (.write a true d) s = .next t →
    let base := a.toNat % 2 ^ (8 * s.env.chip.ndev) % s.env.chip.cap
    (∀ i b, d[i]? = some b → (∀ j < d.length, i < j → (base + j) % s.env.chip.cap ≠ (base + i) % s.env.chip.cap) →
      t.env.chip.mem.get ((base + i) % s.env.chip.cap) = b) ∧
    (d.length ≤ s.env.chip.cap → ∀ i b, d[i]? = some b → t.env.chip.mem.get ((base + i) % s.env.chip.cap) = b) ∧
    (∀ x, (∀ i < d.length, (base + i) % s.env.chip.cap ≠ x) → t.env.chip.mem.get x = s.env.chip.mem.get x) ∧
    t.env.chip.mem = Memory.writeBlock s.env.chip.cap s.env.chip.mem base d ∧
    t.env.chip.wel = false ∧ t.env.chip.wpen = s.env.chip.wpen ∧ t.env.chip.bp1 = s.env.chip.bp1 ∧
    t.env.chip.bp0 = s.env.chip.bp0 ∧ t.env.chip.idb = s.env.chip.idb

/-- R65, R66, R143: with `WEL` clear the device discards a WRITE and a WRSR, and CMDENC still answers ERR 0. -/
def Obligations.WriteWithoutLatchIsDiscarded : Prop :=
  ∀ (s t : State) (h : Token) (i : Instr),
    s.life = .ready → s.hnd = some h → s.par.wf = true → s.env.link = .reference [] → s.env.chip.wel = false →
    ((∃ a d, i = .write a true d) ∨ ∃ v, i = .wrsr v) → s.sendable i →
    exec i s = .next t → t.env.chip = s.env.chip ∧ ∃ r, t.resps = s.resps ++ [r] ∧ r.err = .ok

/-- R68, R67: WREN then RDSR answers a status with bit 1 set, and WRDI then RDSR one with bit 1 clear; the other bits are those
of the device. -/
def Obligations.LatchIsSeenInTheStatus : Prop :=
  ∀ (s : State) (h : Token), s.life = .ready → s.hnd = some h → s.par.wf = true → s.env.link = .reference [] →
    (∃ t u r, exec .wren s = .next t ∧ exec .rdsr t = .next u ∧ u.resps = t.resps ++ [r] ∧
      r.sr = ({ s.env.chip with wel := true } : Chip).status ∧ r.sr.getLsbD 1 = true) ∧
    (∃ t u r, exec .wrdi s = .next t ∧ exec .rdsr t = .next u ∧ u.resps = t.resps ++ [r] ∧
      r.sr = ({ s.env.chip with wel := false } : Chip).status ∧ r.sr.getLsbD 1 = false)

/-- R66, R67: WRSR with `WEL` set and then RDSR answers the bits 7, 3 and 2 of the value sent, and nothing else: `WEL` is
cleared, bits 6:4, 1 and 0 of the value are ignored. -/
def Obligations.WrsrWritesTheWritableBits : Prop :=
  ∀ (s : State) (h : Token) (v : Byte),
    s.life = .ready → s.hnd = some h → s.par.wf = true → s.env.link = .reference [] → s.env.chip.wel = true →
    ∃ t u r, exec (.wrsr v) s = .next t ∧ exec .rdsr t = .next u ∧ u.resps = t.resps ++ [r] ∧ r.sr = v &&& 0x8C ∧
      t.env.chip.mem = s.env.chip.mem

/-- R241: on the reference device RDSR, WREN, READ, RDID, GETCAP, DESTROY and INIT leave `WEL` set, and WRDI, WRITE and WRSR that
are sent clear it. -/
def Obligations.WhichRequestsClearTheLatch : Prop :=
  ∀ (s t : State) (i : Instr), s.par.wf = true → s.env.link = .reference [] → s.env.chip.wel = true → exec i s = .next t →
    ((isLifecycle i = true ∨ i = .rdid ∨ i = .getcap ∨ i = .rdsr ∨ i = .wren ∨ ∃ a n, i = .read a n) → t.env.chip.wel = true) ∧
    ((i = .wrdi ∨ (∃ v, i = .wrsr v) ∨ ∃ a p d, i = .write a p d) →
      t.trace ≠ s.trace → t.env.chip.wel = false)

/-- R64, R66 to R69, R71: no request but WRITE changes a byte of the device's array, whatever the transport. -/
def Obligations.OnlyWriteChangesTheArray : Prop :=
  ∀ (s t : State) (i : Instr), s.par.wf = true → (∀ a p d, i ≠ .write a p d) → exec i s = .next t →
    t.env.chip.mem = s.env.chip.mem ∧ t.env.chip.idb = s.env.chip.idb

/-- R69, R70, R110: INIT over the reference transport, from any idle state, answers the device's identifier bytes and selects a
width that matches the device. -/
def Obligations.InitMatchesTheReferenceDevice : Prop :=
  ∀ (bus cs : U32) (g : I32) (clk : U32) (s : State), s.seq = .idle → s.par.wf = true → s.env.link = .reference [] →
    ∃ s1 s2 t, exec (.init bus cs g clk) s = .next s1 ∧ exec (.init bus cs g clk) s1 = .next s2 ∧
      exec (.init bus cs g clk) s2 = .next t ∧ t.life = .ready ∧ t.hnd = some 1 ∧ t.env.chip = s.env.chip ∧
      t.afw.code = s.env.chip.ndev + 1 ∧ dens t.id = s.env.chip.idb.b2 ∧
      t.id = idFromReply [0, s.env.chip.idb.b0, s.env.chip.idb.b1, s.env.chip.idb.b2, s.env.chip.idb.b3]

/-- R207, D29: a failed transfer of the reference transport changes the device as the injected first part of the frame could, and
with R70's injection (`seen = 0`) not at all; the request reports the code (RDSR: 0xFF) and keeps its registers. That an
injection names the part seen is the model's choice (log entry 15). -/
def Obligations.FailedTransferLeavesAPrefixOfItsEffect : Prop :=
  ∀ (s : State) (h : Token) (i : Instr) (c : I32) (seen : Nat) (rest : List Inject) (call : Call) (tx : Bytes),
    s.life = .ready → s.hnd = some h → s.env.link = .reference (.fail c seen :: rest) → s.sendable i →
    readyCall s.par h s.afw i = some call → call.frame = some tx →
    ∃ t, exec i s = .next t ∧ t.env.chip = s.env.chip.afterFrame s.par (tx.take seen) ∧
      (seen = 0 → t.env.chip = s.env.chip) ∧ t.handle = s.handle ∧
      t.resps = s.resps ++ [if i = .rdsr then { sr := 0xFF } else { err := .transferError, xcode := c }]

/-- R64, R161, R63: READ of any block over the reference transport with a width that matches the device, however long and whatever
the array holds: byte `i` of the answer is the byte at its address modulo the capacity, and the whole device is unchanged. -/
def Obligations.DeviceReadReturnsTheBlock : Prop :=
  ∀ (s : State) (h : Token) (a : U32) (n : I32),
    s.life = .ready → s.hnd = some h → s.env.link = .reference [] → s.par.wf = true →
    s.afw.code = s.env.chip.ndev + 1 → 0 < n.toInt → s.par.fits (s.afw.code + n.toInt.toNat) = true →
    let base := a.toNat % 2 ^ (8 * s.env.chip.ndev) % s.env.chip.cap
    ∃ t r, exec (.read a n) s = .next t ∧ t.resps = s.resps ++ [r] ∧ r.err = .ok ∧ r.data.length = n.toInt.toNat ∧
      (∀ i < n.toInt.toNat, r.data[i]? = some (s.env.chip.mem.get ((base + i) % s.env.chip.cap))) ∧
      t.env.chip = s.env.chip
end

