-- ==== Sys2Proof/Laws/Decode.lean ====
section
/-! SUPPORT. Small lemmas of the decoder and the encoder. -/

namespace Sys2Proof

/-- The encoder puts the CMD byte of the table in the record. -/
@[simp] theorem encode_cmd (i : Instr) : (encode i).cmd = i.cmd := by
  cases i <;> rfl

/-- The CMD byte of each kind of request decodes to that kind: what `decode` answers once the CMD byte is known. -/
theorem decode_of_cmd_reserved (r : HostReq)
    (h : r.cmd ∉ [(0x10 : Byte), 0x11, 0x20, 0x21, 0x30, 0x31, 0x32, 0x33, 0x40, 0x41]) :
    decode r = .error (.reservedCmd r.cmd) := by
  simp only [List.mem_cons, List.not_mem_nil, or_false, not_or] at h
  obtain ⟨h1, h2, h3, h4, h5, h6, h7, h8, h9, h10⟩ := h
  simp only [decode, h1, h2, h3, h4, h5, h6, h7, h8, h9, h10, if_false]

/-- What a decoded request says of its record: the inversion of `decode`. -/
theorem decode_ok_cases {r : HostReq} {i : Instr} (h : decode r = .ok i) :
    (r.cmd = 0x10 ∧ i = .init r.bus r.cs r.csGpio r.clk) ∨ (r.cmd = 0x11 ∧ i = .destroy) ∨ (r.cmd = 0x20 ∧ i = .rdid) ∨
    (r.cmd = 0x21 ∧ i = .getcap) ∨ (r.cmd = 0x30 ∧ i = .rdsr) ∨ (r.cmd = 0x31 ∧ i = .wrsr r.value) ∨
    (r.cmd = 0x32 ∧ i = .wren) ∨ (r.cmd = 0x33 ∧ i = .wrdi) ∨
    (r.cmd = 0x40 ∧ i = .write r.addr r.dpres (if r.dpres then r.data else [])) ∨
    (r.cmd = 0x41 ∧ i = .read r.addr r.len) := by
  unfold decode at h
  split at h
  · cases h; simp_all
  split at h
  · cases h; simp_all
  split at h
  · cases h; simp_all
  split at h
  · cases h; simp_all
  split at h
  · cases h; simp_all
  split at h
  · cases h; simp_all
  split at h
  · cases h; simp_all
  split at h
  · cases h; simp_all
  split at h
  · cases h; simp_all
  split at h
  · cases h; simp_all
  · cases h

/-- Every decoded request is well formed. -/
theorem decode_wellFormed {r : HostReq} {i : Instr} (h : decode r = .ok i) : i.wellFormed = true := by
  rcases decode_ok_cases h with ⟨_, rfl⟩ | ⟨_, rfl⟩ | ⟨_, rfl⟩ | ⟨_, rfl⟩ | ⟨_, rfl⟩ | ⟨_, rfl⟩ | ⟨_, rfl⟩ | ⟨_, rfl⟩ |
    ⟨_, rfl⟩ | ⟨_, rfl⟩ <;> try rfl
  cases r.dpres <;> simp [Instr.wellFormed]

end Sys2Proof
end

