-- ==== Sys2Proof/Laws/Memory.lean ====
section
/-! SUPPORT. The chip's byte array: read after write, and that every write keeps the canonical form. -/

namespace Sys2Proof.Machine

@[simp] theorem Memory.get_nil (a : Nat) : Memory.get [] a = blankByte := rfl

theorem Memory.wfFrom_cons {lo x : Nat} {b : Byte} {m : Memory} :
    Memory.wfFrom lo ((x, b) :: m) = true ↔ lo ≤ x ∧ b ≠ blankByte ∧ Memory.wfFrom (x + 1) m = true := by
  simp [Memory.wfFrom, and_assoc]

/-- A canonical array from a higher address on is one from a lower address on. -/
theorem Memory.wfFrom_mono {lo hi : Nat} {m : Memory} (h : Memory.wfFrom hi m = true) (hle : lo ≤ hi) :
    Memory.wfFrom lo m = true := by
  cases m with
  | nil => rfl
  | cons c m =>
    obtain ⟨x, b⟩ := c
    rw [Memory.wfFrom_cons] at h ⊢
    exact ⟨by omega, h.2⟩

/-- Below the first listed address every byte is blank. -/
theorem Memory.get_below {lo a : Nat} {m : Memory} (h : Memory.wfFrom lo m = true) (ha : a < lo) :
    m.get a = blankByte := by
  induction m generalizing lo with
  | nil => rfl
  | cons c m ih =>
    obtain ⟨x, b⟩ := c
    rw [Memory.wfFrom_cons] at h
    rw [Memory.get, if_neg (by omega)]
    exact ih h.2.2 (by omega)

theorem Memory.get_cell_append {a : Nat} {b : Byte} {m : Memory} {x : Nat} (hm : Memory.wfFrom (a + 1) m = true) :
    (Memory.cell a b ++ m).get x = if a = x then b else m.get x := by
  unfold Memory.cell
  by_cases hb : b = blankByte
  · by_cases hx : a = x
    · subst hx; simpa [hb] using Memory.get_below hm (Nat.lt_succ_self a)
    · simp [hb, hx]
  · simp [hb, Memory.get]

/-- Read after write: the byte written, and every other byte as before. -/
theorem Memory.get_set {lo : Nat} {m : Memory} (h : Memory.wfFrom lo m = true) (a : Nat) (b : Byte) (x : Nat) :
    (m.set a b).get x = if a = x then b else m.get x := by
  induction m generalizing lo with
  | nil =>
    rw [Memory.set, ← List.append_nil (Memory.cell a b), Memory.get_cell_append rfl]
  | cons c m ih =>
    obtain ⟨y, v⟩ := c
    have hc := Memory.wfFrom_cons.mp h
    unfold Memory.set
    by_cases h1 : a < y
    · rw [if_pos h1, Memory.get_cell_append (Memory.wfFrom_cons.mpr ⟨by omega, hc.2⟩)]
    · by_cases h2 : a = y
      · subst h2
        rw [if_neg h1, if_pos rfl, Memory.get_cell_append hc.2.2]
        by_cases hx : a = x <;> simp [Memory.get, hx]
      · rw [if_neg h1, if_neg h2, Memory.get, ih hc.2.2]
        by_cases hx : y = x
        · subst hx; simp [Memory.get, h2]
        · simp [Memory.get, hx]

theorem Memory.wfFrom_cell_append {lo a : Nat} {b : Byte} {m : Memory} (hlo : lo ≤ a)
    (hm : Memory.wfFrom (a + 1) m = true) : Memory.wfFrom lo (Memory.cell a b ++ m) = true := by
  unfold Memory.cell
  by_cases hb : b = blankByte
  · simpa [hb] using Memory.wfFrom_mono hm (by omega)
  · simpa [hb] using Memory.wfFrom_cons.mpr ⟨hlo, hb, hm⟩

/-- A write keeps the canonical form. -/
theorem Memory.wfFrom_set {lo : Nat} {m : Memory} (h : Memory.wfFrom lo m = true) {a : Nat} (ha : lo ≤ a) (b : Byte) :
    Memory.wfFrom lo (m.set a b) = true := by
  induction m generalizing lo with
  | nil =>
    rw [Memory.set, ← List.append_nil (Memory.cell a b)]
    exact Memory.wfFrom_cell_append ha rfl
  | cons c m ih =>
    obtain ⟨y, v⟩ := c
    have hc := Memory.wfFrom_cons.mp h
    unfold Memory.set
    by_cases h1 : a < y
    · rw [if_pos h1]
      exact Memory.wfFrom_cell_append ha (Memory.wfFrom_cons.mpr ⟨by omega, hc.2⟩)
    · by_cases h2 : a = y
      · subst h2
        rw [if_neg h1, if_pos rfl]
        exact Memory.wfFrom_cell_append ha hc.2.2
      · rw [if_neg h1, if_neg h2]
        exact Memory.wfFrom_cons.mpr ⟨hc.1, hc.2.1, ih hc.2.2 (by omega)⟩

theorem Memory.wf_set {m : Memory} (h : m.wf = true) (a : Nat) (b : Byte) : (m.set a b).wf = true :=
  Memory.wfFrom_set h (Nat.zero_le a) b

/-- Where a write can put a listed byte. -/
theorem Memory.mem_set {m : Memory} {a : Nat} {b : Byte} {c : Host.Cell} (h : c ∈ m.set a b) : c.1 = a ∨ c ∈ m := by
  have hcell : ∀ {c : Host.Cell}, c ∈ Memory.cell a b → c.1 = a := by
    intro c hc
    unfold Memory.cell at hc
    split at hc
    · cases hc
    · simp only [List.mem_singleton] at hc; simp [hc]
  induction m with
  | nil => exact .inl (hcell (by simpa [Memory.set] using h))
  | cons d m ih =>
    obtain ⟨y, v⟩ := d
    unfold Memory.set at h
    split at h
    · rcases List.mem_append.mp h with h | h
      · exact .inl (hcell h)
      · exact .inr h
    · split at h
      · rcases List.mem_append.mp h with h | h
        · exact .inl (hcell h)
        · exact .inr (List.mem_cons_of_mem _ h)
      · rcases List.mem_cons.mp h with h | h
        · exact .inr (h ▸ List.mem_cons_self)
        · rcases ih h with h | h
          · exact .inl h
          · exact .inr (List.mem_cons_of_mem _ h)

/-! ### Blocks -/

theorem Memory.wf_writeBlock {cap : Nat} {m : Memory} (h : m.wf = true) (a : Nat) (v : Bytes) :
    (Memory.writeBlock cap m a v).wf = true := by
  induction v generalizing m a with
  | nil => exact h
  | cons b bs ih => exact ih (Memory.wf_set h _ b) (a + 1)

theorem Memory.mem_writeBlock {cap : Nat} (hcap : 0 < cap) {m : Memory} (h : ∀ c ∈ m, c.1 < cap) (a : Nat) (v : Bytes) :
    ∀ c ∈ Memory.writeBlock cap m a v, c.1 < cap := by
  induction v generalizing m a with
  | nil => exact h
  | cons b bs ih =>
    refine ih (fun c hc => ?_) (a + 1)
    rcases Memory.mem_set hc with hc | hc
    · rw [hc]; exact Nat.mod_lt _ hcap
    · exact h c hc

/-- A byte outside the block reads as before. -/
theorem Memory.get_writeBlock_other {cap : Nat} {m : Memory} (hm : m.wf = true) (a : Nat) (v : Bytes) (x : Nat)
    (hx : ∀ i < v.length, (a + i) % cap ≠ x) : (Memory.writeBlock cap m a v).get x = m.get x := by
  induction v generalizing m a with
  | nil => rfl
  | cons b bs ih =>
    rw [Memory.writeBlock, ih (Memory.wf_set hm _ b) (a + 1), Memory.get_set hm, if_neg]
    · simpa using hx 0 (by simp)
    · intro i hi
      have := hx (i + 1) (by simpa using hi)
      rwa [show a + 1 + i = a + (i + 1) by omega]

/-- Two addresses of a block no longer than the capacity differ. -/
theorem mod_ne_of_lt {cap a i : Nat} (hi : 0 < i) (hc : i < cap) : (a + i) % cap ≠ a % cap := by
  intro h
  have h1 : (a + i) % cap = (a + 0) % cap := by simpa using h
  have := (Nat.ModEq.add_left_cancel' a h1 : i ≡ 0 [MOD cap])
  rw [Nat.ModEq, Nat.mod_eq_of_lt hc, Nat.zero_mod] at this
  omega

/-- A block no longer than the capacity reads back as it was written. -/
theorem Memory.readBlock_writeBlock {cap : Nat} {m : Memory} (hm : m.wf = true) (a : Nat) (v : Bytes)
    (hv : v.length ≤ cap) : Memory.readBlock cap (Memory.writeBlock cap m a v) a v.length = v := by
  induction v generalizing m a with
  | nil => rfl
  | cons b bs ih =>
    simp only [List.length_cons] at hv
    rw [List.length_cons, Memory.readBlock, Memory.writeBlock, ih (Memory.wf_set hm _ b) (a + 1) (by omega),
      Memory.get_writeBlock_other (Memory.wf_set hm _ b), Memory.get_set hm, if_pos rfl]
    intro i hi
    rw [show a + 1 + i = a + (i + 1) by omega]
    exact mod_ne_of_lt (by omega) (by omega)

/-- Byte `i` of a block no longer than the capacity, after the block is written. -/
theorem Memory.get_writeBlock {cap : Nat} {m : Memory} (hm : m.wf = true) (a : Nat) (v : Bytes) (hv : v.length ≤ cap)
    (i : Nat) (b : Byte) (hi : v[i]? = some b) : (Memory.writeBlock cap m a v).get ((a + i) % cap) = b := by
  induction v generalizing m a i with
  | nil => simp at hi
  | cons c cs ih =>
    simp only [List.length_cons] at hv
    cases i with
    | zero =>
      simp only [List.getElem?_cons_zero, Option.some.injEq] at hi
      subst hi
      rw [Memory.writeBlock, Memory.get_writeBlock_other (Memory.wf_set hm _ _), Memory.get_set hm, Nat.add_zero,
        if_pos rfl]
      intro i hi
      rw [Nat.add_zero, show a + 1 + i = a + (i + 1) by omega]
      exact mod_ne_of_lt (by omega) (by omega)
    | succ i =>
      rw [Memory.writeBlock, show a + (i + 1) = a + 1 + i by omega]
      exact ih (Memory.wf_set hm _ _) (a + 1) (by omega) i (by simpa using hi)

theorem Memory.length_readBlock (cap : Nat) (m : Memory) (a n : Nat) : (Memory.readBlock cap m a n).length = n := by
  induction n generalizing a with
  | zero => rfl
  | succ n ih => simp [Memory.readBlock, ih]

/-- Byte `i` of a block read is the byte at its address modulo the capacity (R64). -/
theorem Memory.getElem?_readBlock (cap : Nat) (m : Memory) {a n i : Nat} (hi : i < n) :
    (Memory.readBlock cap m a n)[i]? = some (m.get ((a + i) % cap)) := by
  induction n generalizing a i with
  | zero => omega
  | succ n ih =>
    cases i with
    | zero => rfl
    | succ i =>
      rw [Memory.readBlock, List.getElem?_cons_succ, ih (by omega), show a + 1 + i = a + (i + 1) by omega]

end Sys2Proof.Machine
end

