-- ==== Sys2Proof/Laws/Operands.lean ====
section
/-! SUPPORT. Lengths and values of frames, replies and addresses. -/

namespace Sys2Proof.Machine

@[simp] theorem length_addrBytes (a : U32) (n : Nat) : (addrBytes a n).length = n := by
  induction n with
  | zero => rfl
  | succ n ih => simp [addrBytes, ih]

@[simp] theorem length_fill (n : Nat) : (fill n).length = n := by simp [fill]

/-- A header of width `w ≥ 1` has `w` bytes (R83). -/
theorem length_frameHeader (op : Byte) (a : U32) {w : Nat} (hw : 0 < w) : (frameHeader op a w).length = w := by
  simp [frameHeader]; omega

theorem length_writeFrame (p : Config) {w : Nat} (hw : 0 < w) (a : U32) (d : Bytes) :
    (writeFrame p w a d).length = w + d.length := by
  simp [writeFrame, length_frameHeader _ _ hw]

theorem length_readFrame (p : Config) {w : Nat} (hw : 0 < w) (a : U32) (n : I32) :
    (readFrame p w a n).length = w + readCount n := by
  simp [readFrame, length_frameHeader _ _ hw]

@[simp] theorem length_idFrame (p : Config) : (idFrame p).length = 5 := rfl
@[simp] theorem length_rdsrFrame (p : Config) : (rdsrFrame p).length = 2 := rfl
@[simp] theorem length_wrsrFrame (p : Config) (v : Byte) : (wrsrFrame p v).length = 2 := rfl

/-- The identifier frame byte by byte (R84). -/
theorem idFrame_eq (p : Config) : idFrame p = [p.opcRdid, 0, 0, 0, 0] := rfl

/-- One more byte at the end of a big-endian number. -/
theorem bigEndian_append_singleton (bs : Bytes) (b : Byte) : bigEndian (bs ++ [b]) = bigEndian bs * 256 + b.toNat := by
  simp [bigEndian]

/-- The device reads the low `8n` bits of the address that the encoder sent (R51, R52, R63). -/
theorem bigEndian_addrBytes (a : U32) (n : Nat) : bigEndian (addrBytes a n) = a.toNat % 2 ^ (8 * n) := by
  have hfold : ∀ (n v : Nat), (addrBytes a n).foldl (fun v b => v * 256 + b.toNat) v
      = v * 2 ^ (8 * n) + a.toNat % 2 ^ (8 * n) := by
    intro n
    induction n with
    | zero => intro v; simp [addrBytes, Nat.mod_one]
    | succ n ih =>
      intro v
      have hb : (a.extractLsb' (8 * n) 8).toNat = a.toNat / 2 ^ (8 * n) % 256 := by
        simp [BitVec.extractLsb'_toNat, Nat.shiftRight_eq_div_pow]
      rw [addrBytes, List.foldl_cons, ih, hb, show 8 * (n + 1) = 8 * n + 8 by omega, Nat.pow_add,
        Nat.mod_mul, show (2 : Nat) ^ 8 = 256 from rfl]
      ring
  simpa [bigEndian] using hfold n 0

/-- Address fields of addresses that agree in the low `8n` bits are the same bytes (R51). -/
theorem addrBytes_congr {a b : U32} (n : Nat) (h : a.toNat % 2 ^ (8 * n) = b.toNat % 2 ^ (8 * n)) :
    addrBytes a n = addrBytes b n := by
  induction n with
  | zero => rfl
  | succ n ih =>
    have hd : (2 : Nat) ^ (8 * n) ∣ 2 ^ (8 * (n + 1)) := Nat.pow_dvd_pow 2 (by omega)
    have hlow : a.toNat % 2 ^ (8 * n) = b.toNat % 2 ^ (8 * n) := by
      rw [← Nat.mod_mod_of_dvd a.toNat hd, ← Nat.mod_mod_of_dvd b.toNat hd, h]
    rw [addrBytes, addrBytes, ih hlow]
    congr 1
    apply BitVec.eq_of_toNat_eq
    rw [show 8 * (n + 1) = 8 * n + 8 by omega, Nat.pow_add] at h
    have := congrArg (· / 2 ^ (8 * n)) h
    simpa [BitVec.extractLsb'_toNat, Nat.shiftRight_eq_div_pow, Nat.mod_mul_right_div_self] using this

/-- The identifier is the concatenation of its four bytes, the last one on the wire first (R54). -/
theorem idFromReply_append (b0 b1 b2 b3 b4 : Byte) :
    idFromReply [b0, b1, b2, b3, b4] = (b4 ++ b3 ++ b2 ++ b1 : BitVec (8 + 8 + 8 + 8)) := by
  have h1 := b1.isLt
  have h2 := b2.isLt
  have h3 := b3.isLt
  have h4 := b4.isLt
  apply BitVec.eq_of_toNat_eq
  simp only [idFromReply, replyByte, BitVec.toNat_or, BitVec.toNat_shiftLeft, BitVec.toNat_append, List.getD_cons_succ,
    List.getD_cons_zero, BitVec.toNat_setWidth]
  have e : ∀ x k : Nat, x < 256 → k ≤ 24 → (x % 2 ^ 32) <<< k % 2 ^ 32 = x <<< k := by
    intro x k hx hk
    have : x * 2 ^ k < 256 * 2 ^ 24 :=
      Nat.mul_lt_mul_of_lt_of_le hx (Nat.pow_le_pow_right (by omega) hk) (by positivity)
    rw [Nat.mod_eq_of_lt (a := x) (by omega), Nat.shiftLeft_eq, Nat.mod_eq_of_lt (by omega)]
  rw [e _ 8 h2 (by omega), e _ 16 h3 (by omega), e _ 24 h4 (by omega), Nat.mod_eq_of_lt (by omega)]
  simp only [Nat.shiftLeft_or_distrib, ← Nat.shiftLeft_add]
  generalize b1.toNat = x1, b2.toNat <<< 8 = x2, b3.toNat <<< 16 = x3, b4.toNat <<< 24 = x4
  rw [Nat.lor_comm _ x1, Nat.lor_comm (x4 ||| x3) x2, Nat.lor_comm x4 x3, ← Nat.lor_assoc, ← Nat.lor_assoc]

/-- The width that R133 selects is never UNSET. -/
theorem widthOf_ne_unset (d : Byte) : widthOf d ≠ .unset := by
  unfold widthOf; split <;> simp

theorem capacity_pos (d : Byte) : 0 < capacity d := by
  simp [capacity]

@[simp] theorem resolveCfg_fixedFields (p : Config) (bus cs : U32) (g : I32) (clk : U32) :
    (resolveCfg p bus cs g clk).bits = 8 ∧ (resolveCfg p bus cs g clk).mode = 0 ∧
      (resolveCfg p bus cs g clk).order = .msbFirst := ⟨rfl, rfl, rfl⟩

end Sys2Proof.Machine
end

