-- ==== Sys2Proof/Laws/Env.lean ====
section
/-! SUPPORT. What one exchange with the environment can do: the reply's length, and what it leaves of the reference device. -/

namespace Sys2Proof.Machine

@[simp] theorem length_replyOf (n : Nat) (named : Bytes) : (replyOf n named).length = n := by
  simp [replyOf]; omega

/-- A reply whose named bytes fill the frame is those bytes. -/
theorem replyOf_of_length {n : Nat} {named : Bytes} (h : named.length = n) : replyOf n named = named := by
  simp [replyOf, ← h]

/-- The reference device's reply is as long as the frame (R33 (a), R63). -/
@[simp] theorem Chip.length_reply (p : Config) (free : Nat → Byte) (tx : Bytes) (c : Chip) :
    (c.reply p free tx).length = tx.length := by
  cases tx with
  | nil => rfl
  | cons op args =>
    unfold Chip.reply
    dsimp only
    split
    · simp
    split
    · simp
    split
    · simp
    split <;> simp

/-- No frame changes the identifier bytes, so none changes the capacity or the address width. -/
@[simp] theorem Chip.afterFrame_idb (p : Config) (tx : Bytes) (c : Chip) : (c.afterFrame p tx).idb = c.idb := by
  cases tx with
  | nil => rfl
  | cons op args =>
    unfold Chip.afterFrame
    dsimp only
    split
    · unfold Chip.writeFrame Chip.memWrite; split <;> rfl
    split
    · unfold Chip.wrsrFrame Chip.writeStatus
      split
      · rfl
      · split <;> rfl
    split
    · rfl
    split <;> rfl

theorem Chip.cap_pos (c : Chip) : 0 < c.cap := capacity_pos _

/-- A block write keeps the array in canonical form and inside the capacity. -/
theorem Chip.memWrite_memOk {c : Chip} (h : c.memOk) (a : Nat) (v : Bytes) : (c.memWrite a v).memOk :=
  ⟨Memory.wf_writeBlock h.1 a v, Memory.mem_writeBlock c.cap_pos h.2 a v⟩

/-- Every frame keeps the array in canonical form and inside the capacity. -/
theorem Chip.afterFrame_memOk (p : Config) (tx : Bytes) {c : Chip} (h : c.memOk) : (c.afterFrame p tx).memOk := by
  cases tx with
  | nil => exact h
  | cons op args =>
    unfold Chip.afterFrame
    dsimp only
    split
    · unfold Chip.writeFrame
      split
      · exact Chip.memWrite_memOk h _ _
      · exact h
    split
    · unfold Chip.wrsrFrame Chip.writeStatus
      split
      · exact h
      · split <;> exact h
    split
    · exact h
    split <;> exact h

/-- What an exchange leaves of the device: nothing changed, or the effect of the frame or of a first part of it. -/
theorem Env.exchange_chip (p : Config) (tx : Bytes) (e : Env) :
    (e.exchange p tx).2.chip = e.chip ∨ ∃ n, (e.exchange p tx).2.chip = e.chip.afterFrame p (tx.take n) := by
  have hall : tx = tx.take tx.length := by simp
  unfold Env.exchange
  split
  · exact .inl rfl
  · exact .inl rfl
  · exact .inl rfl
  · exact .inr ⟨tx.length, by simp [Env.refExchange]⟩
  · exact .inr ⟨tx.length, by simp [Env.refExchange]⟩
  · rename_i seen _ _; exact .inr ⟨seen, rfl⟩
  · exact .inl rfl

theorem Env.exchange_memOk (p : Config) (tx : Bytes) {e : Env} (h : e.chip.memOk) : (e.exchange p tx).2.chip.memOk := by
  rcases e.exchange_chip p tx with h' | ⟨n, h'⟩ <;> rw [h']
  · exact h
  · exact Chip.afterFrame_memOk p _ h

theorem Env.openBus_chip (e : Env) : e.openBus.2.chip = e.chip := by
  unfold Env.openBus; split <;> rfl

/-- Free draws and the reference transport reply with as many bytes as the frame has (R33 (a)). -/
theorem Env.exchange_length {p : Config} {tx : Bytes} {e : Env} {c : I32} {rx : Bytes} (hd : e.link.dutiful)
    (h : (e.exchange p tx).1 = .ok (c, rx)) : rx.length = tx.length := by
  unfold Env.exchange at h
  split at h
  · unfold drawAnswer at h
    split at h
    · cases h
    · cases h
    · cases h; simp
  · cases h
  · rename_i heq; rw [heq] at hd; exact hd.elim
  · cases h; simp
  · cases h; simp
  · cases h
  · cases h

/-- An exchange keeps the kind of the transport. -/
theorem Env.exchange_dutiful (p : Config) (tx : Bytes) {e : Env} (hd : e.link.dutiful) :
    (e.exchange p tx).2.link.dutiful := by
  unfold Env.exchange
  split <;> rename_i heq <;> first
    | (rw [heq] at hd; exact hd.elim)
    | (simp [Env.refExchange, heq, Link.dutiful])

theorem Env.openBus_dutiful {e : Env} (hd : e.link.dutiful) : e.openBus.2.link.dutiful := by
  unfold Env.openBus
  split <;> rename_i heq <;> first
    | (rw [heq] at hd; exact hd.elim)
    | (simp [heq, Link.dutiful])

/-! ### `Close` -/

/-- `Close` has no effect on the device (R70). -/
theorem Env.close_chip (e : Env) : e.close.2.chip = e.chip := by
  unfold Env.close
  split
  · split <;> (unfold Env.closeAfter; split <;> rfl)
  all_goals rfl

/-- A transport that keeps its duties completes every `Close`, if not at this step then later (R33 (b)). -/
theorem Env.close_ne_never {e : Env} (hd : e.link.dutiful) : e.close.1 ≠ .never := by
  unfold Env.close
  split <;> rename_i heq <;> first
    | (rw [heq] at hd; exact hd.elim)
    | (split <;> (unfold Env.closeAfter; split <;> simp))
    | simp

theorem Env.close_dutiful {e : Env} (hd : e.link.dutiful) : e.close.2.link.dutiful := by
  unfold Env.close
  split <;> rename_i heq <;> first
    | (rw [heq] at hd; exact hd.elim)
    | (split <;> (unfold Env.closeAfter; split <;> exact hd))
    | simp [heq, Link.dutiful]

/-- Only a drawn `Close` that waits leaves a number of steps to wait for. -/
theorem Env.close_closeLeft {e : Env} (h : e.closeLeft = none ∨ e.link = .draws) :
    e.close.2.closeLeft = none ∨ e.close.1 = .waits ∧ e.close.2.link = .draws := by
  unfold Env.close
  split <;> rename_i heq
  · split <;> (unfold Env.closeAfter; split <;> simp [heq])
  all_goals (rw [heq] at h; left; simpa using h)

@[simp] theorem Env.exchange_closeLeft (p : Config) (tx : Bytes) (e : Env) :
    (e.exchange p tx).2.closeLeft = e.closeLeft := by
  unfold Env.exchange; split <;> rfl

@[simp] theorem Env.openBus_closeLeft (e : Env) : e.openBus.2.closeLeft = e.closeLeft := by
  unfold Env.openBus; split <;> rfl

/-- The reference transport with no injection (R70). -/
theorem Env.exchange_reference (p : Config) (tx : Bytes) (e : Env) (h : e.link = .reference []) :
    e.exchange p tx = e.refExchange p tx := by
  simp [Env.exchange, h]

end Sys2Proof.Machine
end

