-- ==== Sys2Proof/Laws/Device.lean ====
section
/-! SUPPORT. What each frame of CMDENC does to the reference device and what the device replies, one lemma for each frame
(spec/20_memory.md R63 to R69). -/

namespace Sys2Proof.Machine

/-- The op-codes differ (R6). -/
theorem Config.nodup_of_wf {p : Config} (h : p.wf = true) : p.opcodes.Nodup := by
  simp only [Config.wf, Bool.and_eq_true, decide_eq_true_eq] at h
  exact h.1

section Frames
variable {p : Config} (h : p.wf = true)
include h

/-- The reply to RDID (R69). -/
theorem reply_idFrame (free : Nat → Byte) (c : Chip) : c.reply p free (idFrame p) = c.idReply := by
  have := Config.nodup_of_wf h
  simp [Config.opcodes] at this
  simp [Chip.reply, idFrame, fill, replyOf, Chip.idReply]
  grind

/-- The reply to RDSR (R67). -/
theorem reply_rdsrFrame (free : Nat → Byte) (c : Chip) : c.reply p free (rdsrFrame p) = [0x00, c.status] := by
  have := Config.nodup_of_wf h
  simp [Config.opcodes] at this
  simp [Chip.reply, rdsrFrame, replyOf]
  grind

/-- No part of an identifier read changes the device (R69). -/
theorem afterFrame_take_idFrame (n : Nat) (c : Chip) : c.afterFrame p ((idFrame p).take n) = c := by
  have := Config.nodup_of_wf h
  simp [Config.opcodes] at this
  cases n <;> simp [Chip.afterFrame, idFrame]
  grind

/-- No part of a status read changes the device (R67). -/
theorem afterFrame_take_rdsrFrame (n : Nat) (c : Chip) : c.afterFrame p ((rdsrFrame p).take n) = c := by
  have := Config.nodup_of_wf h
  simp [Config.opcodes] at this
  cases n <;> simp [Chip.afterFrame, rdsrFrame]
  grind

/-- No part of a memory read changes the device (R64). -/
theorem afterFrame_take_readFrame (n w : Nat) (a : U32) (len : I32) (c : Chip) :
    c.afterFrame p ((readFrame p w a len).take n) = c := by
  have := Config.nodup_of_wf h
  simp [Config.opcodes] at this
  cases n <;> simp [Chip.afterFrame, readFrame, frameHeader]
  grind

/-- WRSR (R66). -/
theorem afterFrame_wrsrFrame (v : Byte) (c : Chip) : c.afterFrame p (wrsrFrame p v) = c.writeStatus v := by
  have := Config.nodup_of_wf h
  simp [Config.opcodes] at this
  simp [Chip.afterFrame, wrsrFrame, Chip.wrsrFrame]
  grind

/-- WREN (R68). -/
theorem afterFrame_wren (c : Chip) : c.afterFrame p [p.opcWren] = c.setWel true := by
  have := Config.nodup_of_wf h
  simp [Config.opcodes] at this
  simp [Chip.afterFrame]
  grind

/-- WRDI (R68). -/
theorem afterFrame_wrdi (c : Chip) : c.afterFrame p [p.opcWrdi] = c.setWel false := by
  have := Config.nodup_of_wf h
  simp [Config.opcodes] at this
  simp [Chip.afterFrame]
  grind

end Frames

/-- WRITE (R65). -/
theorem afterFrame_writeFrame (p : Config) (w : Nat) (a : U32) (d : Bytes) (c : Chip) :
    c.afterFrame p (writeFrame p w a d) = c.writeFrame (addrBytes a (w - 1) ++ d) := by
  simp [Chip.afterFrame, writeFrame, frameHeader]

/-- The reply to READ (R64). -/
theorem reply_readFrame (p : Config) (free : Nat → Byte) {w : Nat} (hw : 0 < w) (a : U32) (len : I32) (c : Chip) :
    c.reply p free (readFrame p w a len) =
      replyOf (w + readCount len) (c.readReply (addrBytes a (w - 1) ++ fill (readCount len))) := by
  rw [← length_readFrame p hw a len]
  simp [Chip.reply, readFrame, frameHeader]

/-- With a width that matches the device, it reads the address that the encoder sent (R51, R63). -/
theorem frameAddr_addrBytes {c : Chip} {w : Nat} (hw : w = c.ndev + 1) (a : U32) (d : Bytes) :
    c.frameAddr (addrBytes a (w - 1) ++ d) = a.toNat % 2 ^ (8 * c.ndev) % c.cap := by
  subst hw
  simp [Chip.frameAddr, bigEndian_addrBytes]

/-- An honoured WRITE with a matching width (R65). -/
theorem writeFrame_honoured {c : Chip} {w : Nat} (hw : w = c.ndev + 1) (hl : c.wel = true) (a : U32) (d : Bytes) :
    c.writeFrame (addrBytes a (w - 1) ++ d) =
      { c.memWrite (a.toNat % 2 ^ (8 * c.ndev) % c.cap) d with wel := false } := by
  rw [← frameAddr_addrBytes hw a d]
  subst hw
  simp [Chip.writeFrame, hl]

/-- The latch is bit 1 of the status byte (R67). -/
theorem status_wel (c : Chip) : c.status.getLsbD 1 = c.wel := by
  obtain ⟨_, w, b1, b0, l, _⟩ := c
  cases w <;> cases b1 <;> cases b0 <;> cases l <;> simp [Chip.status]

/-- One exchange with the reference transport and no injection (R70). -/
theorem Env.exchange_of_reference {p : Config} {tx : Bytes} {e : Env} (h : e.link = .reference []) :
    e.exchange p tx =
      (.ok (BitVec.ofNat 32 tx.length, e.chip.reply p (Config.drawByte e.drawn) tx),
        { e with chip := e.chip.afterFrame p tx, drawn := e.drawn + 1 }) := by
  rw [Env.exchange_reference _ _ _ h]; rfl

end Sys2Proof.Machine
end

