-- ==== Sys2Proof/Laws/State.lean ====
section
/-! SUPPORT. What each update of the state leaves in each field: one lemma a field, true by `rfl`. -/

namespace Sys2Proof.Machine

@[simp] theorem respond_par (r : Response) (s : State) : (respond r s).par = s.par := rfl
@[simp] theorem respond_life (r : Response) (s : State) : (respond r s).life = s.life := rfl
@[simp] theorem respond_afw (r : Response) (s : State) : (respond r s).afw = s.afw := rfl
@[simp] theorem respond_id (r : Response) (s : State) : (respond r s).id = s.id := rfl
@[simp] theorem respond_hnd (r : Response) (s : State) : (respond r s).hnd = s.hnd := rfl
@[simp] theorem respond_cfg (r : Response) (s : State) : (respond r s).cfg = s.cfg := rfl
@[simp] theorem respond_seq (r : Response) (s : State) : (respond r s).seq = .idle := rfl
@[simp] theorem respond_failCode (r : Response) (s : State) : (respond r s).failCode = s.failCode := rfl
@[simp] theorem respond_call (r : Response) (s : State) : (respond r s).call = none := rfl
@[simp] theorem respond_rx (r : Response) (s : State) : (respond r s).rx = none := rfl
@[simp] theorem respond_rst (r : Response) (s : State) : (respond r s).rst = s.rst := rfl
@[simp] theorem respond_host (r : Response) (s : State) : (respond r s).host = s.host := rfl
@[simp] theorem respond_resps (r : Response) (s : State) : (respond r s).resps = s.resps ++ [r] := rfl
@[simp] theorem respond_trace (r : Response) (s : State) : (respond r s).trace = s.trace := rfl
@[simp] theorem respond_env (r : Response) (s : State) : (respond r s).env = s.env := rfl
@[simp] theorem respond_free (r : Response) (s : State) : (respond r s).free = s.free := rfl

@[simp] theorem raise_par (e : Err) (x : I32) (s : State) : (raise e x s).par = s.par := rfl
@[simp] theorem raise_life (e : Err) (x : I32) (s : State) : (raise e x s).life = s.life := rfl
@[simp] theorem raise_afw (e : Err) (x : I32) (s : State) : (raise e x s).afw = s.afw := rfl
@[simp] theorem raise_id (e : Err) (x : I32) (s : State) : (raise e x s).id = s.id := rfl
@[simp] theorem raise_hnd (e : Err) (x : I32) (s : State) : (raise e x s).hnd = s.hnd := rfl
@[simp] theorem raise_cfg (e : Err) (x : I32) (s : State) : (raise e x s).cfg = s.cfg := rfl
@[simp] theorem raise_seq (e : Err) (x : I32) (s : State) : (raise e x s).seq = .idle := rfl
@[simp] theorem raise_failCode (e : Err) (x : I32) (s : State) : (raise e x s).failCode = s.failCode := rfl
@[simp] theorem raise_call (e : Err) (x : I32) (s : State) : (raise e x s).call = none := rfl
@[simp] theorem raise_rx (e : Err) (x : I32) (s : State) : (raise e x s).rx = none := rfl
@[simp] theorem raise_rst (e : Err) (x : I32) (s : State) : (raise e x s).rst = s.rst := rfl
@[simp] theorem raise_host (e : Err) (x : I32) (s : State) : (raise e x s).host = s.host := rfl
@[simp] theorem raise_resps (e : Err) (x : I32) (s : State) : (raise e x s).resps = s.resps ++ [{ err := e, xcode := x }] := rfl
@[simp] theorem raise_trace (e : Err) (x : I32) (s : State) : (raise e x s).trace = s.trace := rfl
@[simp] theorem raise_env (e : Err) (x : I32) (s : State) : (raise e x s).env = s.env := rfl
@[simp] theorem raise_free (e : Err) (x : I32) (s : State) : (raise e x s).free = s.free := rfl

@[simp] theorem unbind_par (s : State) : (unbind s).par = s.par := rfl
@[simp] theorem unbind_life (s : State) : (unbind s).life = .unbound := rfl
@[simp] theorem unbind_afw (s : State) : (unbind s).afw = .unset := rfl
@[simp] theorem unbind_id (s : State) : (unbind s).id = 0 := rfl
@[simp] theorem unbind_hnd (s : State) : (unbind s).hnd = none := rfl
@[simp] theorem unbind_cfg (s : State) : (unbind s).cfg = {} := rfl
@[simp] theorem unbind_seq (s : State) : (unbind s).seq = s.seq := rfl
@[simp] theorem unbind_failCode (s : State) : (unbind s).failCode = s.failCode := rfl
@[simp] theorem unbind_call (s : State) : (unbind s).call = s.call := rfl
@[simp] theorem unbind_rx (s : State) : (unbind s).rx = s.rx := rfl
@[simp] theorem unbind_rst (s : State) : (unbind s).rst = s.rst := rfl
@[simp] theorem unbind_host (s : State) : (unbind s).host = s.host := rfl
@[simp] theorem unbind_resps (s : State) : (unbind s).resps = s.resps := rfl
@[simp] theorem unbind_trace (s : State) : (unbind s).trace = s.trace := rfl
@[simp] theorem unbind_env (s : State) : (unbind s).env = s.env := rfl
@[simp] theorem unbind_free (s : State) : (unbind s).free = s.free := rfl

@[simp] theorem answered_par (c : Call) (r : Reply) (s : State) : (answered c r s).par = s.par := rfl
@[simp] theorem answered_life (c : Call) (r : Reply) (s : State) : (answered c r s).life = s.life := rfl
@[simp] theorem answered_afw (c : Call) (r : Reply) (s : State) : (answered c r s).afw = s.afw := rfl
@[simp] theorem answered_id (c : Call) (r : Reply) (s : State) : (answered c r s).id = s.id := rfl
@[simp] theorem answered_hnd (c : Call) (r : Reply) (s : State) : (answered c r s).hnd = s.hnd := rfl
@[simp] theorem answered_cfg (c : Call) (r : Reply) (s : State) : (answered c r s).cfg = s.cfg := rfl
@[simp] theorem answered_seq (c : Call) (r : Reply) (s : State) : (answered c r s).seq = s.seq := rfl
@[simp] theorem answered_failCode (c : Call) (r : Reply) (s : State) : (answered c r s).failCode = s.failCode := rfl
@[simp] theorem answered_call (c : Call) (r : Reply) (s : State) : (answered c r s).call = none := rfl
@[simp] theorem answered_rx (c : Call) (r : Reply) (s : State) : (answered c r s).rx = s.rx := rfl
@[simp] theorem answered_rst (c : Call) (r : Reply) (s : State) : (answered c r s).rst = s.rst := rfl
@[simp] theorem answered_host (c : Call) (r : Reply) (s : State) : (answered c r s).host = s.host := rfl
@[simp] theorem answered_resps (c : Call) (r : Reply) (s : State) : (answered c r s).resps = s.resps := rfl
@[simp] theorem answered_trace (c : Call) (r : Reply) (s : State) : (answered c r s).trace = s.trace ++ [{ call := c, reply := r }] := rfl
@[simp] theorem answered_env (c : Call) (r : Reply) (s : State) : (answered c r s).env = s.env := rfl
@[simp] theorem answered_free (c : Call) (r : Reply) (s : State) : (answered c r s).free = s.free := rfl

@[simp] theorem await_par (i : Instr) (k : Nat) (c : Call) (s : State) : (await i k c s).par = s.par := rfl
@[simp] theorem await_life (i : Instr) (k : Nat) (c : Call) (s : State) : (await i k c s).life = s.life := rfl
@[simp] theorem await_afw (i : Instr) (k : Nat) (c : Call) (s : State) : (await i k c s).afw = s.afw := rfl
@[simp] theorem await_id (i : Instr) (k : Nat) (c : Call) (s : State) : (await i k c s).id = s.id := rfl
@[simp] theorem await_hnd (i : Instr) (k : Nat) (c : Call) (s : State) : (await i k c s).hnd = s.hnd := rfl
@[simp] theorem await_cfg (i : Instr) (k : Nat) (c : Call) (s : State) : (await i k c s).cfg = s.cfg := rfl
@[simp] theorem await_seq (i : Instr) (k : Nat) (c : Call) (s : State) : (await i k c s).seq = .busy i k := rfl
@[simp] theorem await_failCode (i : Instr) (k : Nat) (c : Call) (s : State) : (await i k c s).failCode = s.failCode := rfl
@[simp] theorem await_call (i : Instr) (k : Nat) (c : Call) (s : State) : (await i k c s).call = some c := rfl
@[simp] theorem await_rx (i : Instr) (k : Nat) (c : Call) (s : State) : (await i k c s).rx = s.rx := rfl
@[simp] theorem await_rst (i : Instr) (k : Nat) (c : Call) (s : State) : (await i k c s).rst = s.rst := rfl
@[simp] theorem await_host (i : Instr) (k : Nat) (c : Call) (s : State) : (await i k c s).host = s.host := rfl
@[simp] theorem await_resps (i : Instr) (k : Nat) (c : Call) (s : State) : (await i k c s).resps = s.resps := rfl
@[simp] theorem await_trace (i : Instr) (k : Nat) (c : Call) (s : State) : (await i k c s).trace = s.trace := rfl
@[simp] theorem await_env (i : Instr) (k : Nat) (c : Call) (s : State) : (await i k c s).env = s.env := rfl
@[simp] theorem await_free (i : Instr) (k : Nat) (c : Call) (s : State) : (await i k c s).free = s.free := rfl

@[simp] theorem resetNow_par (s : State) : (s.resetNow).par = s.par := rfl
@[simp] theorem resetNow_life (s : State) : (s.resetNow).life = .unbound := rfl
@[simp] theorem resetNow_afw (s : State) : (s.resetNow).afw = .unset := rfl
@[simp] theorem resetNow_id (s : State) : (s.resetNow).id = 0 := rfl
@[simp] theorem resetNow_hnd (s : State) : (s.resetNow).hnd = none := rfl
@[simp] theorem resetNow_cfg (s : State) : (s.resetNow).cfg = {} := rfl
@[simp] theorem resetNow_seq (s : State) : (s.resetNow).seq = .idle := rfl
@[simp] theorem resetNow_failCode (s : State) : (s.resetNow).failCode = 0 := rfl
@[simp] theorem resetNow_call (s : State) : (s.resetNow).call = none := rfl
@[simp] theorem resetNow_rx (s : State) : (s.resetNow).rx = none := rfl
@[simp] theorem resetNow_rst (s : State) : (s.resetNow).rst = false := rfl
@[simp] theorem resetNow_host (s : State) : (s.resetNow).host = s.host := rfl
@[simp] theorem resetNow_resps (s : State) : (s.resetNow).resps = s.resps := rfl
@[simp] theorem resetNow_trace (s : State) : (s.resetNow).trace = s.trace := rfl
@[simp] theorem resetNow_env (s : State) : (s.resetNow).env = s.env.afterReset s.call.isSome := rfl
@[simp] theorem resetNow_free (s : State) : (s.resetNow).free = s.free := rfl

/-! The handle's registers after each update. -/

@[simp] theorem respond_handle (r : Response) (s : State) : (respond r s).handle = s.handle := rfl
@[simp] theorem raise_handle (e : Err) (x : I32) (s : State) : (raise e x s).handle = s.handle := rfl
@[simp] theorem unbind_handle (s : State) : (unbind s).handle = Handle.empty := rfl
@[simp] theorem answered_handle (c : Call) (r : Reply) (s : State) : (answered c r s).handle = s.handle := rfl
@[simp] theorem await_handle (i : Instr) (k : Nat) (c : Call) (s : State) : (await i k c s).handle = s.handle := rfl
@[simp] theorem resetNow_handle (s : State) : s.resetNow.handle = Handle.empty := rfl

/-- The bytes in the reply buffer. -/
@[simp] theorem reply_of_rx (s : State) (rx : Bytes) (h : s.rx = some rx) : s.reply = rx := by
  simp [State.reply, h]

end Sys2Proof.Machine
end

