-- ==== Sys2Proof/Laws/Ops.lean ====
section
/-! SUPPORT. What the shared operations answer: one forward lemma for each way a call goes, one inversion lemma for each
operation. -/

namespace Sys2Proof.Machine

/-! ### Checks -/

theorem needReady_ready {s : State} (h : s.life = .ready) (k : Result) : needReady s k = k := by
  simp [needReady, h]

theorem needReady_unbound {s : State} (h : s.life = .unbound) (k : Result) :
    needReady s k = .next (raise .invalidHandle 0 s) := by
  simp [needReady, h]

/-- A request that needs READY answers InvalidHandle, or goes on with a READY handle. -/
theorem needReady_cases {s : State} {k r : Result} (h : needReady s k = r) :
    (s.life = .unbound ∧ r = .next (raise .invalidHandle 0 s)) ∨ (s.life = .ready ∧ k = r) := by
  cases hl : s.life
  · exact .inl ⟨rfl, by rw [← h, needReady_unbound hl]⟩
  · exact .inr ⟨rfl, by rw [← h, needReady_ready hl]⟩

theorem withWidth_set {s : State} (h : s.afw ≠ .unset) (k : Nat → Result) : withWidth s k = k s.afw.code := by
  cases ha : s.afw <;> simp_all [withWidth, Afw.code]

theorem withWidth_cases {s : State} {k : Nat → Result} {r : Result} (h : withWidth s k = r) :
    (s.afw = .unset ∧ r = .fault .noWidth) ∨ (s.afw ≠ .unset ∧ k s.afw.code = r) := by
  cases ha : s.afw <;> simp_all [withWidth, Afw.code]

theorem Afw.code_pos {w : Afw} (h : w ≠ .unset) : 0 < w.code := by
  cases w <;> simp_all [Afw.code]

theorem needRoom_fits {n : Nat} {s : State} (h : s.par.fits n = true) (k : Result) : needRoom n s k = k := by
  simp [needRoom, h]

theorem needRoom_cases {n : Nat} {s : State} {k r : Result} (h : needRoom n s k = r) :
    (s.par.fits n = false ∧ r = .next (raise .allocationFailure 0 s)) ∨ (s.par.fits n = true ∧ k = r) := by
  cases hf : s.par.fits n <;> simp_all [needRoom]

/-! ### Calls -/

theorem Env.xfer_snd (p : Config) (tx : Bytes) (e : Env) : (e.xfer p tx).2 = (e.exchange p tx).2 := rfl
theorem Env.xferFull_eq (p : Config) (tx : Bytes) (e : Env) : e.xferFull p tx = e.exchange p tx := rfl

section Forward
variable {i : Instr} {k : Nat} {tx : Bytes} {s : State} {onErr onOk : I32 → State → Result} {h : Token} {e : Env}

theorem callXfer_silent (hh : s.hnd = some h) (ha : s.env.xfer s.par tx = (.silent, e)) :
    callXfer i k tx s onErr onOk = .next (await i k (.xfer h tx) { s with env := e }) := by
  simp [callXfer, hh, ha]

theorem callXfer_err {c : I32} (hh : s.hnd = some h) (ha : s.env.xfer s.par tx = (.err c, e)) :
    callXfer i k tx s onErr onOk = onErr c (answered (.xfer h tx) (.failed c) { s with env := e }) := by
  simp [callXfer, hh, ha]

theorem callXfer_ok {n : I32} (hh : s.hnd = some h) (ha : s.env.xfer s.par tx = (.ok n, e)) :
    callXfer i k tx s onErr onOk = onOk n (answered (.xfer h tx) (.count n) { s with env := e }) := by
  simp [callXfer, hh, ha]

theorem callXferFull_silent (hh : s.hnd = some h) (ha : s.env.xferFull s.par tx = (.silent, e)) :
    callXferFull i k tx s onErr onOk = .next (await i k (.xferFull h tx) { s with env := e }) := by
  simp [callXferFull, hh, ha]

theorem callXferFull_err {c : I32} (hh : s.hnd = some h) (ha : s.env.xferFull s.par tx = (.err c, e)) :
    callXferFull i k tx s onErr onOk = onErr c (answered (.xferFull h tx) (.failed c) { s with env := e }) := by
  simp [callXferFull, hh, ha]

theorem callXferFull_ok {c : I32} {rx : Bytes} (hh : s.hnd = some h) (ha : s.env.xferFull s.par tx = (.ok (c, rx), e))
    (hl : rx.length = tx.length) :
    callXferFull i k tx s onErr onOk =
      onOk c { answered (.xferFull h tx) (.full c rx) { s with env := e } with rx := some rx } := by
  simp [callXferFull, hh, ha, hl]

end Forward

section Closes
variable {i : Instr} {k : Nat} {s : State} {onDone : State → Result} {h : Token} {e : Env}

theorem callClose_waits (hh : s.hnd = some h) (ha : s.env.close = (.waits, e)) :
    callClose i k s onDone = .next (await i k (.close h) { s with env := e }) := by
  simp [callClose, hh, ha]

theorem callClose_done (hh : s.hnd = some h) (ha : s.env.close = (.done, e)) :
    callClose i k s onDone = onDone (answered (.close h) .closed { s with env := e }) := by
  simp [callClose, hh, ha]

theorem callClose_never (hh : s.hnd = some h) (ha : s.env.close = (.never, e)) :
    callClose i k s onDone = .refused .transportDuty := by
  simp [callClose, hh, ha]

theorem closeIfHeld_none (hh : s.hnd = none) : closeIfHeld i k s onDone = onDone s := by
  simp [closeIfHeld, hh]

theorem closeIfHeld_some (hh : s.hnd = some h) : closeIfHeld i k s onDone = callClose i k s onDone := by
  simp [closeIfHeld, hh]

/-- What `Close` can do. -/
theorem callClose_cases {r : Result} (hr : callClose i k s onDone = r) :
    (s.hnd = none ∧ r = .fault .noHandle) ∨
    ∃ hd, s.hnd = some hd ∧
      let s' : State := { s with env := s.env.close.2 }
      (s.env.close.1 = .waits ∧ r = .next (await i k (.close hd) s') ∨
       s.env.close.1 = .done ∧ onDone (answered (.close hd) .closed s') = r ∨
       s.env.close.1 = .never ∧ r = .refused .transportDuty) := by
  unfold callClose at hr
  split at hr
  · exact .inl ⟨‹_›, hr.symm⟩
  · refine .inr ⟨_, ‹_›, ?_⟩
    split at hr
    · exact .inl ⟨‹_›, hr.symm⟩
    · exact .inr (.inl ⟨‹_›, hr⟩)
    · exact .inr (.inr ⟨‹_›, hr.symm⟩)

end Closes

/-- What `Open` can do. -/
theorem callOpen_cases {i : Instr} {k : Nat} {s : State} {onErr : I32 → State → Result} {onOk : Token → State → Result}
    {r : Result} (h : callOpen i k s onErr onOk = r) :
    let s' : State := { s with env := s.env.openBus.2 }
    r = .next (await i k (.openBus s.cfg) s') ∨
    (∃ c, onErr c (answered (.openBus s.cfg) (.failed c) s') = r) ∨
    (∃ t, onOk t (answered (.openBus s.cfg) (.opened t) s') = r) := by
  unfold callOpen at h
  split at h
  · exact .inl h.symm
  · exact .inr (.inl ⟨_, h⟩)
  · exact .inr (.inr ⟨_, h⟩)

/-- What `Xfer` can do. -/
theorem callXfer_cases {i : Instr} {k : Nat} {tx : Bytes} {s : State} {onErr onOk : I32 → State → Result}
    {r : Result} (h : callXfer i k tx s onErr onOk = r) :
    (s.hnd = none ∧ r = .fault .noHandle) ∨
    ∃ hd, s.hnd = some hd ∧
      let s' : State := { s with env := (s.env.exchange s.par tx).2 }
      (r = .next (await i k (.xfer hd tx) s') ∨
       (∃ c, onErr c (answered (.xfer hd tx) (.failed c) s') = r) ∨
       (∃ n, onOk n (answered (.xfer hd tx) (.count n) s') = r)) := by
  unfold callXfer at h
  split at h
  · exact .inl ⟨‹_›, h.symm⟩
  · refine .inr ⟨_, ‹_›, ?_⟩
    split at h
    · exact .inl h.symm
    · exact .inr (.inl ⟨_, h⟩)
    · exact .inr (.inr ⟨_, h⟩)

/-- What `XferFull` can do. -/
theorem callXferFull_cases {i : Instr} {k : Nat} {tx : Bytes} {s : State} {onErr onOk : I32 → State → Result}
    {r : Result} (h : callXferFull i k tx s onErr onOk = r) :
    (s.hnd = none ∧ r = .fault .noHandle) ∨
    ∃ hd, s.hnd = some hd ∧
      let s' : State := { s with env := (s.env.exchange s.par tx).2 }
      (r = .next (await i k (.xferFull hd tx) s') ∨
       (∃ c, onErr c (answered (.xferFull hd tx) (.failed c) s') = r) ∨
       (∃ c rx, rx.length = tx.length ∧ (s.env.exchange s.par tx).1 = .ok (c, rx) ∧
         onOk c { answered (.xferFull hd tx) (.full c rx) s' with rx := some rx } = r) ∨
       (∃ c rx, rx.length ≠ tx.length ∧ (s.env.exchange s.par tx).1 = .ok (c, rx) ∧ r = .refused .transportDuty)) := by
  unfold callXferFull at h
  split at h
  · exact .inl ⟨‹_›, h.symm⟩
  · refine .inr ⟨_, ‹_›, ?_⟩
    simp only [Env.xferFull_eq] at h
    split at h
    · exact .inl h.symm
    · exact .inr (.inl ⟨_, h⟩)
    · rename_i c rx hx
      split at h
      · exact .inr (.inr (.inl ⟨c, rx, ‹_›, hx, h⟩))
      · exact .inr (.inr (.inr ⟨c, rx, ‹_›, hx, h.symm⟩))

end Sys2Proof.Machine
end

