-- ==== Sys2Proof/Laws/Exec.lean ====
section
/-! SUPPORT. Everything one step can do, said once: `exec_moves` for a request, `step_cases` for the machine. -/

namespace Sys2Proof.Machine

/-- A check of R208 that can stop a request, with the error it raises. -/
inductive Stops (s : State) : Instr → Err → Prop where
  | handle {i : Instr} (h : s.life = .unbound) (hi : i = .getcap ∨ ∃ t w, i ≠ .rdsr ∧ (readyCall s.par t w i).isSome) :
      Stops s i .invalidHandle
  | noBuffer {a : U32} {p : Bool} {d : Bytes} (h : s.life = .ready) (hd : p = false ∨ d = []) :
      Stops s (.write a p d) .invalidArgument
  | noLength {a : U32} {n : I32} (h : s.life = .ready) (hn : n.toInt ≤ 0) : Stops s (.read a n) .invalidArgument
  | writeRoom {a : U32} {p : Bool} {d : Bytes} (h : s.life = .ready)
      (hr : s.par.fits (s.afw.code + d.length) = false) : Stops s (.write a p d) .allocationFailure
  | readRoom {a : U32} {n : I32} (h : s.life = .ready)
      (hr : s.par.fits (s.afw.code + readCount n) = false) : Stops s (.read a n) .allocationFailure

/-- How an answered call of a READY request ends it: the register `ID` after it, and the response. -/
inductive Ends (s : State) : Instr → Reply → U32 → Response → Prop where
  | error {i : Instr} {c : I32} (hi : i ≠ .rdsr) : Ends s i (.failed c) s.id { err := .transferError, xcode := c }
  | sentinel {c : I32} : Ends s .rdsr (.failed c) s.id { sr := srSentinel }
  | status {c : I32} {rx : Bytes} : Ends s .rdsr (.full c rx) s.id { sr := replyByte rx 1 }
  | plain {i : Instr} {n : I32} (hi : i = .wren ∨ i = .wrdi ∨ ∃ v, i = .wrsr v) : Ends s i (.count n) s.id {}
  | written {a : U32} {p : Bool} {d : Bytes} {n : I32} : Ends s (.write a p d) (.count n) s.id { res := n }
  | ident {c : I32} {rx : Bytes} : Ends s .rdid (.full c rx) (idFromReply rx) { idv := idFromReply rx }
  | data {a : U32} {n c : I32} {rx : Bytes} :
      Ends s (.read a n) (.full c rx) s.id { res := c, data := payload rx s.afw.code (readCount n) }

/-- The state after a `Close` of a held handle that is done at this step, or after none where no handle is held. -/
inductive Closed (s : State) : State → Prop where
  | absent (hh : s.hnd = none) : Closed s s
  | closed {h : Token} (hh : s.hnd = some h) (hd : s.env.close.1 = .done) :
      Closed s (answered (.close h) .closed { s with env := s.env.close.2 })

/-- What closing a held handle can do, when it goes on to a next state. -/
theorem closeIfHeld_cases {i : Instr} {k : Nat} {s t : State} {onDone : State → Result}
    (h : closeIfHeld i k s onDone = .next t) :
    (∃ hd, s.hnd = some hd ∧ s.env.close.1 = .waits ∧
      t = await i k (.close hd) { s with env := s.env.close.2 }) ∨
    ∃ s', Closed s s' ∧ onDone s' = .next t := by
  unfold closeIfHeld at h
  split at h
  · exact .inr ⟨s, .absent ‹_›, h⟩
  · rcases callClose_cases h with ⟨_, h⟩ | ⟨hd, hh, ⟨hw, h⟩ | ⟨hw, h⟩ | ⟨_, h⟩⟩
    · cases h
    · cases h; exact .inl ⟨hd, hh, hw, rfl⟩
    · exact .inr ⟨_, .closed hh hw, h⟩
    · cases h

/-- Where a `Close` stands: DESTROY, INIT step 0, and INIT after a failed identifier read. -/
inductive Closes (s : State) : Instr → Nat → Prop where
  | destroy : Closes s .destroy 0
  | release {bus cs : U32} {g : I32} {clk : U32} (hp : s.seq.position = 0) : Closes s (.init bus cs g clk) 0
  | failed {bus cs : U32} {g : I32} {clk : U32} (hp : 3 ≤ s.seq.position) : Closes s (.init bus cs g clk) 3

/-- Everything a request can do in one step, when it goes on to a next state. -/
inductive Moves (s : State) : Instr → State → Prop where
  /-- A check stops it: no transport call. -/
  | stopped {i : Instr} {e : Err} (h : Stops s i e) : Moves s i (raise e 0 s)
  /-- RDSR on a handle that is not READY. -/
  | noStatus (h : s.life = .unbound) : Moves s .rdsr (respond { sr := srSentinel } s)
  /-- GETCAP. -/
  | capacity {v n : Nat} (h : s.life = .ready) : Moves s .getcap (respond { capv := v } { s with free := n })
  /-- Its one call waits. -/
  | waits {i : Instr} {c : Call} {tx : Bytes} {h : Token} (hl : s.life = .ready) (hh : s.hnd = some h)
      (hc : readyCall s.par h s.afw i = some c) (hw : s.par.wf = true → c.frameOk s.par) (hf : c.frame = some tx) :
      Moves s i (await i 0 c { s with env := (s.env.exchange s.par tx).2 })
  /-- Its one call is answered. -/
  | ends {i : Instr} {c : Call} {tx : Bytes} {h : Token} {rp : Reply} {id : U32} {r : Response} (hl : s.life = .ready)
      (hh : s.hnd = some h) (hc : readyCall s.par h s.afw i = some c) (hw : s.par.wf = true → c.frameOk s.par)
      (hf : c.frame = some tx) (he : Ends s i rp id r) :
      Moves s i (respond r { answered c rp { s with env := (s.env.exchange s.par tx).2 } with id := id })
  /-- A `Close` waits. -/
  | closeWaits {i : Instr} {k : Nat} {h : Token} (hc : Closes s i k) (hh : s.hnd = some h) (hw : s.env.close.1 = .waits) :
      Moves s i (await i k (.close h) { s with env := s.env.close.2 })
  /-- DESTROY. -/
  | destroyed {s' : State} (hc : Closed s s') : Moves s .destroy (respond {} (unbind s'))
  /-- INIT step 0. -/
  | released {bus cs : U32} {g : I32} {clk : U32} {s' : State} (hp : s.seq.position = 0) (hc : Closed s s') :
      Moves s (.init bus cs g clk)
        { unbind s' with cfg := resolveCfg s'.par bus cs g clk, seq := .busy (.init bus cs g clk) 1 }
  /-- INIT step 1 waits. -/
  | openWaits {bus cs : U32} {g : I32} {clk : U32} (hp : s.seq.position = 1) :
      Moves s (.init bus cs g clk)
        (await (.init bus cs g clk) 1 (.openBus s.cfg) { s with env := s.env.openBus.2 })
  /-- INIT step 1 fails. -/
  | openFails {bus cs : U32} {g : I32} {clk : U32} {c : I32} (hp : s.seq.position = 1) :
      Moves s (.init bus cs g clk)
        (raise .initializationFailure c
          (unbind (answered (.openBus s.cfg) (.failed c) { s with env := s.env.openBus.2 })))
  /-- INIT step 1 succeeds. -/
  | opened {bus cs : U32} {g : I32} {clk : U32} {h : Token} (hp : s.seq.position = 1) :
      Moves s (.init bus cs g clk)
        { answered (.openBus s.cfg) (.opened h) { s with env := s.env.openBus.2 } with
          hnd := some h, seq := .busy (.init bus cs g clk) 2 }
  /-- INIT step 2 waits. -/
  | identWaits {bus cs : U32} {g : I32} {clk : U32} {h : Token} (hp : s.seq.position = 2) (hh : s.hnd = some h) :
      Moves s (.init bus cs g clk)
        (await (.init bus cs g clk) 2 (.xferFull h (idFrame s.par))
          { s with env := (s.env.exchange s.par (idFrame s.par)).2 })
  /-- INIT step 2 fails. -/
  | identFails {bus cs : U32} {g : I32} {clk : U32} {h : Token} {c : I32} (hp : s.seq.position = 2)
      (hh : s.hnd = some h) :
      Moves s (.init bus cs g clk)
        { answered (.xferFull h (idFrame s.par)) (.failed c)
            { s with env := (s.env.exchange s.par (idFrame s.par)).2 } with
          failCode := c, seq := .busy (.init bus cs g clk) 3 }
  /-- INIT's `Close` after that failure. -/
  | failClosed {bus cs : U32} {g : I32} {clk : U32} {h : Token} (hp : 3 ≤ s.seq.position) (hh : s.hnd = some h)
      (hd : s.env.close.1 = .done) :
      Moves s (.init bus cs g clk)
        (raise .initializationFailure s.failCode
          { unbind (answered (.close h) .closed { s with env := s.env.close.2 }) with failCode := 0 })
  /-- INIT step 2 succeeds. -/
  | identified {bus cs : U32} {g : I32} {clk : U32} {h : Token} {c : I32} {rx : Bytes} (hp : s.seq.position = 2)
      (hh : s.hnd = some h) (hl : rx.length = 5) :
      Moves s (.init bus cs g clk)
        (respond { idv := idFromReply rx }
          { answered (.xferFull h (idFrame s.par)) (.full c rx)
              { s with env := (s.env.exchange s.par (idFrame s.par)).2 } with
            id := idFromReply rx, afw := widthOf (dens (idFromReply rx)), life := .ready })

/-- No check of R208 stops a lifecycle request. -/
theorem Stops.not_lifecycle {s : State} {i : Instr} {e : Err} (h : Stops s i e) : isLifecycle i = false := by
  cases h with
  | handle _ hi =>
    rcases hi with rfl | ⟨_, _, _, hi⟩
    · rfl
    · cases i <;> first | rfl | simp [readyCall] at hi
  | _ => rfl

/-- A lifecycle request has no call of its own at READY. -/
theorem readyCall_not_lifecycle {p : Config} {h : Token} {w : Afw} {i : Instr} {c : Call}
    (hc : readyCall p h w i = some c) : isLifecycle i = false := by
  cases i <;> first | rfl | simp [readyCall] at hc

/-- The call of a READY request passes the handle's token (R25). -/
theorem readyCall_token {p : Config} {h : Token} {w : Afw} {i : Instr} {c : Call} (hc : readyCall p h w i = some c) :
    c.token = some h := by
  cases i <;> simp only [readyCall, Option.some.injEq, reduceCtorEq] at hc <;> subst hc <;> rfl

/-! ### Past the checks: each request on a READY handle is its call -/

theorem execRdid_ready {s : State} (h : s.life = .ready) :
    execRdid s = callXferFull .rdid 0 (idFrame s.par) s transferError fun _ s =>
      .next (respond { idv := idFromReply s.reply } { s with id := idFromReply s.reply }) :=
  needReady_ready h _

theorem execRdsr_unbound {s : State} (h : s.life = .unbound) :
    execRdsr s = .next (respond { sr := srSentinel } s) := by
  unfold execRdsr; split <;> simp_all

theorem execRdsr_ready {s : State} (h : s.life = .ready) :
    execRdsr s = callXferFull .rdsr 0 (rdsrFrame s.par) s (fun _ s => .next (respond { sr := srSentinel } s))
      fun _ s => .next (respond { sr := replyByte s.reply 1 } s) := by
  unfold execRdsr; split <;> simp_all

theorem execWrsr_ready {s : State} (h : s.life = .ready) (v : Byte) :
    execWrsr v s = callXfer (.wrsr v) 0 (wrsrFrame s.par v) s transferError fun _ s => .next (respond {} s) :=
  needReady_ready h _

theorem execWren_ready {s : State} (h : s.life = .ready) :
    execWren s = callXfer .wren 0 [s.par.opcWren] s transferError fun _ s => .next (respond {} s) :=
  needReady_ready h _

theorem execWrdi_ready {s : State} (h : s.life = .ready) :
    execWrdi s = callXfer .wrdi 0 [s.par.opcWrdi] s transferError fun _ s => .next (respond {} s) :=
  needReady_ready h _

theorem execWrite_sends {a : U32} {p : Bool} {d : Bytes} {s : State} (h : s.life = .ready) (hs : s.sendable (.write a p d)) :
    execWrite a p d s =
      callXfer (.write a p d) 0 (writeFrame s.par s.afw.code a d) s transferError fun n s =>
        .next (respond { res := n } s) := by
  obtain ⟨hp, hd, ha, hr⟩ := hs
  simp only [execWrite, needReady_ready h, hp, hd, Bool.true_eq_false, if_false, withWidth_set ha, needRoom_fits hr]

theorem execRead_sends {a : U32} {n : I32} {s : State} (h : s.life = .ready) (hs : s.sendable (.read a n)) :
    execRead a n s =
      callXferFull (.read a n) 0 (readFrame s.par s.afw.code a n) s transferError fun c s' =>
        .next (respond { res := c, data := payload s'.reply s.afw.code (readCount n) } s') := by
  obtain ⟨hn, ha, hr⟩ := hs
  have hn : ¬ n.toInt ≤ 0 := by omega
  have hr : s.par.fits (s.afw.code + readCount n) = true := hr
  simp only [execRead, needReady_ready h, hn, if_false, withWidth_set ha, needRoom_fits hr]

/-! ### What may stand on the port -/

theorem frameOk_short {p : Config} (hp : p.wf = true) {c : Call} {op : Byte} {args : Bytes}
    (hc : c.frame = some (op :: args)) (hop : op ∈ p.opcodes) (hl : (op :: args).length ≤ 5) : c.frameOk p := by
  intro tx htx
  rw [hc] at htx
  cases htx
  refine ⟨⟨op, args, rfl, hop⟩, ?_⟩
  simp only [Config.wf, Config.fits, Bool.and_eq_true] at hp ⊢
  cases hcap : p.frameCap with
  | none => rfl
  | some m => simp only [hcap, decide_eq_true_eq] at hp ⊢; omega

theorem idFrame_frameOk {p : Config} (hp : p.wf = true) (h : Token) : (Call.xferFull h (idFrame p)).frameOk p :=
  frameOk_short hp rfl (by simp [Config.opcodes]) (by simp [fill])

theorem writeFrame_frameOk {p : Config} {w : Nat} {a : U32} {d : Bytes} (hw : 0 < w) (hf : p.fits (w + d.length) = true)
    (h : Token) : (Call.xfer h (writeFrame p w a d)).frameOk p := by
  intro tx htx
  cases htx
  exact ⟨⟨p.opcWrite, _, rfl, by simp [Config.opcodes]⟩, by rw [length_writeFrame p hw]; exact hf⟩

theorem readFrame_frameOk {p : Config} {w : Nat} {a : U32} {n : I32} (hw : 0 < w)
    (hf : p.fits (w + readCount n) = true) (h : Token) : (Call.xferFull h (readFrame p w a n)).frameOk p := by
  intro tx htx
  cases htx
  exact ⟨⟨p.opcRead, _, rfl, by simp [Config.opcodes]⟩, by rw [length_readFrame p hw]; exact hf⟩

/-! ### One lemma a request -/

theorem execInit_moves {bus cs : U32} {g : I32} {clk : U32} {s t : State} (h : execInit bus cs g clk s = .next t) :
    Moves s (.init bus cs g clk) t := by
  unfold execInit at h
  match hp : s.seq.position, h with
  | 0, h =>
    rcases closeIfHeld_cases h with ⟨hd, hh, hw, rfl⟩ | ⟨s', hc, h⟩
    · exact .closeWaits (.release hp) hh hw
    · cases h
      exact .released hp hc
  | 1, h =>
    rcases callOpen_cases h with h | ⟨c, h⟩ | ⟨k, h⟩ <;> cases h
    · exact .openWaits hp
    · exact .openFails hp
    · exact .opened hp
  | 2, h =>
    rcases callXferFull_cases h with ⟨_, h⟩ | ⟨hd, hh, h | ⟨c, h⟩ | ⟨c, rx, hl, _, h⟩ | ⟨c, rx, _, _, h⟩⟩ <;> cases h
    · exact .identWaits hp hh
    · exact .identFails hp hh
    · exact .identified hp hh hl
  | n + 3, h =>
    have hp : 3 ≤ s.seq.position := by omega
    rcases callClose_cases h with ⟨_, h⟩ | ⟨hd, hh, ⟨hw, h⟩ | ⟨hw, h⟩ | ⟨_, h⟩⟩ <;> cases h
    · exact .closeWaits (.failed hp) hh hw
    · exact .failClosed hp hh hw

theorem execDestroy_moves {s t : State} (h : execDestroy s = .next t) : Moves s .destroy t := by
  rcases closeIfHeld_cases h with ⟨hd, hh, hw, rfl⟩ | ⟨s', hc, h⟩
  · exact .closeWaits .destroy hh hw
  · cases h; exact .destroyed hc

theorem execRdid_moves {s t : State} (h : execRdid s = .next t) : Moves s .rdid t := by
  rcases needReady_cases h with ⟨hl, h⟩ | ⟨hl, h⟩
  · cases h; exact .stopped (.handle hl (.inr ⟨0, .unset, by simp, rfl⟩))
  · rcases callXferFull_cases h with ⟨_, h⟩ | ⟨hd, hh, h | ⟨c, h⟩ | ⟨c, rx, _, _, h⟩ | ⟨c, rx, _, _, h⟩⟩ <;> cases h
    · exact .waits hl hh rfl (idFrame_frameOk · hd) rfl
    · exact .ends hl hh rfl (idFrame_frameOk · hd) rfl (.error (by simp))
    · exact .ends hl hh rfl (idFrame_frameOk · hd) rfl .ident

theorem execGetcap_moves {s t : State} (h : execGetcap s = .next t) : Moves s .getcap t := by
  rcases needReady_cases h with ⟨hl, h⟩ | ⟨hl, h⟩
  · cases h; exact .stopped (.handle hl (.inl rfl))
  · split at h <;> cases h <;> exact .capacity hl

theorem execRdsr_moves {s t : State} (h : execRdsr s = .next t) : Moves s .rdsr t := by
  unfold execRdsr at h
  split at h
  · cases h; exact .noStatus ‹_›
  · rename_i hl
    have hw : ∀ hd, s.par.wf = true → (Call.xferFull hd (rdsrFrame s.par)).frameOk s.par := fun hd hp =>
      frameOk_short hp rfl (by simp [Config.opcodes]) (by simp)
    rcases callXferFull_cases h with ⟨_, h⟩ | ⟨hd, hh, h | ⟨c, h⟩ | ⟨c, rx, _, _, h⟩ | ⟨c, rx, _, _, h⟩⟩ <;> cases h
    · exact .waits hl hh rfl (hw hd) rfl
    · exact .ends hl hh rfl (hw hd) rfl .sentinel
    · exact .ends hl hh rfl (hw hd) rfl .status

theorem execWrsr_moves {v : Byte} {s t : State} (h : execWrsr v s = .next t) : Moves s (.wrsr v) t := by
  rcases needReady_cases h with ⟨hl, h⟩ | ⟨hl, h⟩
  · cases h; exact .stopped (.handle hl (.inr ⟨0, .unset, by simp, rfl⟩))
  · have hw : ∀ hd, s.par.wf = true → (Call.xfer hd (wrsrFrame s.par v)).frameOk s.par := fun hd hp =>
      frameOk_short hp rfl (by simp [Config.opcodes]) (by simp)
    rcases callXfer_cases h with ⟨_, h⟩ | ⟨hd, hh, h | ⟨c, h⟩ | ⟨n, h⟩⟩ <;> cases h
    · exact .waits hl hh rfl (hw hd) rfl
    · exact .ends hl hh rfl (hw hd) rfl (.error (by simp))
    · exact .ends hl hh rfl (hw hd) rfl (.plain (.inr (.inr ⟨v, rfl⟩)))

theorem execWren_moves {s t : State} (h : execWren s = .next t) : Moves s .wren t := by
  rcases needReady_cases h with ⟨hl, h⟩ | ⟨hl, h⟩
  · cases h; exact .stopped (.handle hl (.inr ⟨0, .unset, by simp, rfl⟩))
  · have hw : ∀ hd, s.par.wf = true → (Call.xfer hd [s.par.opcWren]).frameOk s.par := fun hd hp =>
      frameOk_short hp rfl (by simp [Config.opcodes]) (by simp)
    rcases callXfer_cases h with ⟨_, h⟩ | ⟨hd, hh, h | ⟨c, h⟩ | ⟨n, h⟩⟩ <;> cases h
    · exact .waits hl hh rfl (hw hd) rfl
    · exact .ends hl hh rfl (hw hd) rfl (.error (by simp))
    · exact .ends hl hh rfl (hw hd) rfl (.plain (.inl rfl))

theorem execWrdi_moves {s t : State} (h : execWrdi s = .next t) : Moves s .wrdi t := by
  rcases needReady_cases h with ⟨hl, h⟩ | ⟨hl, h⟩
  · cases h; exact .stopped (.handle hl (.inr ⟨0, .unset, by simp, rfl⟩))
  · have hw : ∀ hd, s.par.wf = true → (Call.xfer hd [s.par.opcWrdi]).frameOk s.par := fun hd hp =>
      frameOk_short hp rfl (by simp [Config.opcodes]) (by simp)
    rcases callXfer_cases h with ⟨_, h⟩ | ⟨hd, hh, h | ⟨c, h⟩ | ⟨n, h⟩⟩ <;> cases h
    · exact .waits hl hh rfl (hw hd) rfl
    · exact .ends hl hh rfl (hw hd) rfl (.error (by simp))
    · exact .ends hl hh rfl (hw hd) rfl (.plain (.inr (.inl rfl)))

theorem execWrite_moves {a : U32} {p : Bool} {d : Bytes} {s t : State} (h : execWrite a p d s = .next t) :
    Moves s (.write a p d) t := by
  rcases needReady_cases h with ⟨hl, h⟩ | ⟨hl, h⟩
  · cases h; exact .stopped (.handle hl (.inr ⟨0, .unset, by simp, rfl⟩))
  split at h
  · cases h; exact .stopped (.noBuffer hl (.inl ‹_›))
  split at h
  · cases h; exact .stopped (.noBuffer hl (.inr ‹_›))
  rcases withWidth_cases h with ⟨_, h⟩ | ⟨ha, h⟩
  · cases h
  rcases needRoom_cases h with ⟨hr, h⟩ | ⟨hr, h⟩
  · cases h; exact .stopped (.writeRoom hl hr)
  rcases callXfer_cases h with ⟨_, h⟩ | ⟨hd, hh, h | ⟨c, h⟩ | ⟨n, h⟩⟩ <;> cases h
  · exact .waits hl hh rfl (fun _ => writeFrame_frameOk (Afw.code_pos ha) hr hd) rfl
  · exact .ends hl hh rfl (fun _ => writeFrame_frameOk (Afw.code_pos ha) hr hd) rfl (.error (by simp))
  · exact .ends hl hh rfl (fun _ => writeFrame_frameOk (Afw.code_pos ha) hr hd) rfl .written

theorem execRead_moves {a : U32} {n : I32} {s t : State} (h : execRead a n s = .next t) : Moves s (.read a n) t := by
  rcases needReady_cases h with ⟨hl, h⟩ | ⟨hl, h⟩
  · cases h; exact .stopped (.handle hl (.inr ⟨0, .unset, by simp, rfl⟩))
  split at h
  · cases h; exact .stopped (.noLength hl ‹_›)
  rcases withWidth_cases h with ⟨_, h⟩ | ⟨ha, h⟩
  · cases h
  rcases needRoom_cases h with ⟨hr, h⟩ | ⟨hr, h⟩
  · cases h; exact .stopped (.readRoom hl hr)
  rcases callXferFull_cases h with ⟨_, h⟩ | ⟨hd, hh, h | ⟨c, h⟩ | ⟨c, rx, _, _, h⟩ | ⟨c, rx, _, _, h⟩⟩ <;> cases h
  · exact .waits hl hh rfl (fun _ => readFrame_frameOk (Afw.code_pos ha) hr hd) rfl
  · exact .ends hl hh rfl (fun _ => readFrame_frameOk (Afw.code_pos ha) hr hd) rfl (.error (by simp))
  · exact .ends hl hh rfl (fun _ => readFrame_frameOk (Afw.code_pos ha) hr hd) rfl .data

/-- Everything a request can do in one step. -/
theorem exec_moves {i : Instr} {s t : State} (h : exec i s = .next t) : Moves s i t := by
  cases i with
  | init bus cs g clk => exact execInit_moves h
  | destroy => exact execDestroy_moves h
  | rdid => exact execRdid_moves h
  | getcap => exact execGetcap_moves h
  | rdsr => exact execRdsr_moves h
  | wrsr v => exact execWrsr_moves h
  | wren => exact execWren_moves h
  | wrdi => exact execWrdi_moves h
  | write a p d => exact execWrite_moves h
  | read a n => exact execRead_moves h

/-- Everything the machine can do in one step: reset; wait for a request; refuse a reserved CMD; go on with the running
request; accept a request and run it. -/
theorem step_cases {s : State} {r : Host.Outcome State Fault Refusal} (h : step s = r) :
    (s.rst = true ∧ r = .next s.resetNow) ∨
    (s.rst = false ∧ s.seq = .idle ∧ s.host = [] ∧ r = .next s) ∨
    (s.rst = false ∧ s.seq = .idle ∧ ∃ q rest, s.host = q :: rest ∧ decode q = .error (.reservedCmd q.cmd) ∧
      r = .next (illegalRequest { s with host := rest })) ∨
    (s.rst = false ∧ ∃ i k, s.seq = .busy i k ∧ exec i s = r) ∨
    (s.rst = false ∧ s.seq = .idle ∧ ∃ q rest i, s.host = q :: rest ∧ decode q = .ok i ∧
      exec i { s with host := rest } = r) := by
  unfold step at h
  split at h
  · exact .inl ⟨‹_›, h.symm⟩
  have hr : s.rst = false := by simpa using ‹¬ s.rst = true›
  split at h
  · exact .inr (.inr (.inr (.inl ⟨hr, _, _, ‹_›, h⟩)))
  rename_i hs
  unfold stepIdle State.accept at h
  cases hq : s.host with
  | nil => simp only [hq] at h; exact .inr (.inl ⟨hr, hs, rfl, h.symm⟩)
  | cons q rest =>
    simp only [hq] at h
    cases hd : decode q with
    | ok i =>
      simp only [hd] at h
      exact .inr (.inr (.inr (.inr ⟨hr, hs, q, rest, i, rfl, hd, h⟩)))
    | error e =>
      simp only [hd] at h
      refine .inr (.inr (.inl ⟨hr, hs, q, rest, rfl, ?_, h.symm⟩))
      by_cases hm : q.cmd ∈ [(0x10 : Byte), 0x11, 0x20, 0x21, 0x30, 0x31, 0x32, 0x33, 0x40, 0x41]
      · simp only [List.mem_cons, List.not_mem_nil, or_false] at hm
        rcases hm with hm | hm | hm | hm | hm | hm | hm | hm | hm | hm <;> simp [decode, hm] at hd
      · exact decode_of_cmd_reserved q hm

end Sys2Proof.Machine
end

