-- ==== Sys2Proof/Laws/PerInstr.lean ====
section
/-! SUPPORT. Facts about every request as syntax, one lemma a constructor (LAWS.json, "per_instruction"). -/

namespace Sys2Proof.Laws

/-! ### CmdSelects: the encoder's CMD byte is one the decoder knows, so no well-formed request is taken for a reserved one. -/

/-- The encoded request decodes, and to a request with the same CMD byte. -/
def CmdSelects.Statement (i : Instr) : Prop :=
  ∃ j, decode (encode i) = .ok j ∧ j.cmd = i.cmd

theorem CmdSelects.init (bus cs : U32) (g : I32) (clk : U32) : CmdSelects.Statement (.init bus cs g clk) :=
  ⟨.init bus cs g clk, rfl, rfl⟩
theorem CmdSelects.destroy : CmdSelects.Statement .destroy := ⟨.destroy, rfl, rfl⟩
theorem CmdSelects.rdid : CmdSelects.Statement .rdid := ⟨.rdid, rfl, rfl⟩
theorem CmdSelects.getcap : CmdSelects.Statement .getcap := ⟨.getcap, rfl, rfl⟩
theorem CmdSelects.rdsr : CmdSelects.Statement .rdsr := ⟨.rdsr, rfl, rfl⟩
theorem CmdSelects.wrsr (v : Byte) : CmdSelects.Statement (.wrsr v) := ⟨.wrsr v, rfl, rfl⟩
theorem CmdSelects.wren : CmdSelects.Statement .wren := ⟨.wren, rfl, rfl⟩
theorem CmdSelects.wrdi : CmdSelects.Statement .wrdi := ⟨.wrdi, rfl, rfl⟩
theorem CmdSelects.write (a : U32) (p : Bool) (d : Bytes) : CmdSelects.Statement (.write a p d) :=
  ⟨.write a p (if p then d else []), rfl, rfl⟩
theorem CmdSelects.read (a : U32) (n : I32) : CmdSelects.Statement (.read a n) := ⟨.read a n, rfl, rfl⟩

end Sys2Proof.Laws
end

