-- ==== Sys2Proof/Tests/Slice0.lean ====
section
/-! SUPPORT. Tests, with the expected values of spec/95_test_vectors.md, and one witness for each statement that has
hypotheses: a state and operands that meet them together. -/

namespace Sys2Proof.Tests
open Sys2Proof.Machine

/-! ### Small states -/

/-- READY with the token 1 and a density 2 chip (95_test_vectors.md 2.2, first row), whose `WEL` is set. -/
def ready3 : State :=
  { State.reset with
    life := .ready, afw := .w3, id := 0x08027FC2, hnd := some 1,
    env := { link := .reference [], chip := { wel := true, idb := ⟨0xC2, 0x7F, 0x02, 0x08⟩ } } }

/-- READY with a density 5 chip (95_test_vectors.md P2), whose `WEL` is set. -/
def ready4 : State :=
  { ready3 with
    afw := .w4, id := 0x01057FC2,
    env := { link := .reference [], chip := { wel := true, idb := ⟨0xC2, 0x7F, 0x05, 0x01⟩ } } }

/-- `ready3` whose one next call is answered as written. -/
def scripted (a : Answer Success) : State := { ready3 with env := { link := .script [a] } }

/-- `ready3` with a frame buffer of 8 bytes (95_test_vectors.md 2.5). -/
def capped (s : State) : State := { s with par := { s.par with frameCap := some 8 } }

/-- INIT's `Open`, on a fresh handle. -/
def opening (a : Answer Success) : State :=
  { State.reset with seq := .busy (.init 0 0 (-1) 5000000) 1, env := { link := .script [a] } }

/-- INIT's identifier read, with the token 1. -/
def identifying (a : Answer Success) : State :=
  { State.reset with seq := .busy (.init 0 0 (-1) 5000000) 2, hnd := some 1, env := { link := .script [a] } }

/-- INIT after a failed identifier read, with the token 1 and the code kept: its `Close` is the next call. -/
def closing (l : Link) : State :=
  { State.reset with
    seq := .busy (.init 0 0 (-1) 5000000) 3, hnd := some 1, cfg := { csGpio := -1, clkHz := 5000000 }, failCode := -3,
    env := { link := l } }

/-- DESTROY whose `Close` waits on the port. -/
def destroying (l : Link) : State := { ready3 with seq := .busy .destroy 0, call := some (.close 1), env := { link := l } }

/-- The next state of a step that has one. -/
def after (i : Instr) (s : State) : State :=
  match exec i s with
  | .next t => t
  | _ => s

/-- The next state of a machine step that has one. -/
def stepped (s : State) : State :=
  match step s with
  | .next t => t
  | _ => s

/-! ### Well-formed terms -/

theorem test_wellFormed_refuses_bytes_of_an_absent_buffer : (Instr.write 0 false [0x01]).wellFormed = false := by decide

theorem test_wellFormed_takes_both_forms_of_write :
    (Instr.write 0 false []).wellFormed = true ∧ (Instr.write 0 true [0x01]).wellFormed = true := by decide

/-! ### Decoding, each CMD written out bit by bit from spec/30_encoding.md R81 -/

theorem test_decode_lifecycle :
    decode { cmd := 0b00010000#8, bus := 2, cs := 1, csGpio := 17, clk := 9, addr := 5 } = .ok (.init 2 1 17 9) ∧
    decode { cmd := 0b00010001#8, value := 7 } = .ok .destroy := ⟨rfl, rfl⟩

theorem test_decode_identify :
    decode { cmd := 0b00100000#8 } = .ok .rdid ∧ decode { cmd := 0b00100001#8 } = .ok .getcap := ⟨rfl, rfl⟩

theorem test_decode_status :
    decode { cmd := 0b00110000#8 } = .ok .rdsr ∧ decode { cmd := 0b00110001#8, value := 0x8C } = .ok (.wrsr 0x8C) ∧
    decode { cmd := 0b00110010#8 } = .ok .wren ∧ decode { cmd := 0b00110011#8 } = .ok .wrdi := ⟨rfl, rfl, rfl, rfl⟩

theorem test_decode_data :
    decode { cmd := 0b01000000#8, addr := 0x10, dpres := true, data := [0xDE, 0xAD] } = .ok (.write 0x10 true [0xDE, 0xAD]) ∧
    decode { cmd := 0b01000000#8, addr := 0x10 } = .ok (.write 0x10 false []) ∧
    decode { cmd := 0b01000001#8, addr := 0x10, len := -1 } = .ok (.read 0x10 (-1)) := ⟨rfl, rfl, rfl⟩

/-- The reserved values of 95_test_vectors.md 2.6. -/
theorem test_decode_refuses_reserved :
    decode { cmd := 0x00 } = .error (.reservedCmd 0x00) ∧ decode { cmd := 0x12 } = .error (.reservedCmd 0x12) ∧
    decode { cmd := 0x42 } = .error (.reservedCmd 0x42) ∧ decode { cmd := 0xFF } = .error (.reservedCmd 0xFF) :=
  ⟨rfl, rfl, rfl, rfl⟩

/-! ### Operands -/

/-- 95_test_vectors.md 2.1, width 3. -/
theorem test_frame_w3 :
    frameHeader 0x02 0x00000000 3 = [0x02, 0x00, 0x00] ∧ frameHeader 0x02 0x000000FF 3 = [0x02, 0x00, 0xFF] ∧
    frameHeader 0x02 0x00001234 3 = [0x02, 0x12, 0x34] ∧ frameHeader 0x02 0x0001FFFF 3 = [0x02, 0xFF, 0xFF] ∧
    frameHeader 0x02 0xFFFFFFFF 3 = [0x02, 0xFF, 0xFF] := by decide

/-- 95_test_vectors.md 2.1, width 4. -/
theorem test_frame_w4 :
    frameHeader 0x02 0x000000FF 4 = [0x02, 0x00, 0x00, 0xFF] ∧ frameHeader 0x02 0x00123456 4 = [0x02, 0x12, 0x34, 0x56] ∧
    frameHeader 0x02 0xAB123456 4 = [0x02, 0x12, 0x34, 0x56] ∧
    frameHeader 0x02 0x00FFFFFF 4 = [0x02, 0xFF, 0xFF, 0xFF] := by decide

/-! ### Lines of text (spec/30_encoding.md R90, R91) -/

/-- `WRITE 0xFf, [0xA, 7] ;x` -/
theorem test_line_write :
    Asm.assembleLine ['W', 'R', 'I', 'T', 'E', ' ', '0', 'x', 'F', 'f', ',', ' ', '[', '0', 'x', 'A', ',', ' ', '7', ']', ' ',
      ';', 'x'] = .ok (some (.write 0xFF true [0x0A, 0x07])) := rfl

/-- `READ 16, -1`, and `WRITE_ENABLE false`. -/
theorem test_line_read_and_pseudo :
    Asm.assembleLine ['R', 'E', 'A', 'D', ' ', '1', '6', ',', ' ', '-', '1'] = .ok (some (.read 0x10 (-1))) ∧
    Asm.assembleLine ['W', 'R', 'I', 'T', 'E', '_', 'E', 'N', 'A', 'B', 'L', 'E', ' ', 'f', 'a', 'l', 's', 'e'] =
      .ok (some .wrdi) := ⟨rfl, rfl⟩

/-! ### One step of each request -/

/-- 95_test_vectors.md 2.6: a re-INIT closes the old token and clamps the clock. -/
theorem test_init_releases :
    (after (.init 0 0 (-1) 4294967295) ready3).trace = [⟨.close 1, .closed⟩] ∧
    (after (.init 0 0 (-1) 4294967295) ready3).cfg.clkHz = 10000000 ∧
    (after (.init 2 1 17 0) ready3).cfg = { bus := 2, cs := 1, csGpio := 17 } := by decide

/-- 95_test_vectors.md 2.2: the reply's identifier and INIT's width, the boundary rows and the floating bus. -/
theorem test_init_identifies :
    ∀ row ∈ [(([0x00, 0xC2, 0x7F, 0x03, 0x00] : Bytes), (0x00037FC2 : U32), Afw.w3),
        ([0x00, 0xC2, 0x7F, 0x04, 0x00], 0x00047FC2, .w4), ([0xA5, 0x01, 0x02, 0x05, 0x04], 0x04050201, .w4),
        ([0x00, 0x00, 0x00, 0x80, 0x00], 0x00800000, .w4), ([0xFF, 0xFF, 0xFF, 0xFF, 0xFF], 0xFFFFFFFF, .w4)],
      (after (.init 0 0 (-1) 5000000) (identifying (.ok { code := 5, rx := row.1 }))).id = row.2.1 ∧
      (after (.init 0 0 (-1) 5000000) (identifying (.ok { code := 5, rx := row.1 }))).afw = row.2.2 := by decide

/-- 95_test_vectors.md 2.6: INIT whose identifier transfer fails makes one `Close` and answers ERR 5 with the code; R27 makes
that call a step. -/
theorem test_init_closes_after_a_failed_read :
    (after (.init 0 0 (-1) 5000000) (identifying (.err (-3)))).resps = [] ∧
    (after (.init 0 0 (-1) 5000000) (closing (.reference []))).trace = [⟨.close 1, .closed⟩] ∧
    (after (.init 0 0 (-1) 5000000) (closing (.reference []))).resps = [{ err := .initializationFailure, xcode := -3 }] ∧
    (after (.init 0 0 (-1) 5000000) (closing (.reference []))).handle = Handle.empty := by decide

/-- spec/10_state.md R27: CMDENC waits while its `Close` is not done, with the call on the port and no response. -/
theorem test_destroy_waits :
    (after .destroy { ready3 with env := { link := .reference [.hang] } }).seq = .busy .destroy 0 ∧
    (after .destroy { ready3 with env := { link := .reference [.hang] } }).call = some (.close 1) ∧
    (after .destroy { ready3 with env := { link := .reference [.hang] } }).resps = [] := by decide

/-- 95_test_vectors.md 2.6. -/
theorem test_destroy :
    (after .destroy ready3).trace = [⟨.close 1, .closed⟩] ∧ (after .destroy ready3).handle = Handle.empty ∧
    (after .destroy State.reset).trace = [] ∧ (after .destroy State.reset).resps = [{}] := by decide

/-- 95_test_vectors.md 2.2: `AFW` keeps its INIT value. -/
theorem test_rdid :
    (after .rdid (scripted (.ok { code := 5, rx := [0x00, 0xC2, 0x7F, 0x05, 0x01] }))).resps = [{ idv := 0x01057FC2 }] ∧
    (after .rdid (scripted (.ok { code := 5, rx := [0x00, 0xC2, 0x7F, 0x05, 0x01] }))).afw = .w3 := by decide

/-- 95_test_vectors.md 2.2. -/
theorem test_rdid_failed :
    (after .rdid (scripted (.err (-4)))).resps = [{ err := .transferError, xcode := -4 }] ∧
    (after .rdid (scripted (.err (-4)))).id = 0x08027FC2 := by decide

/-- 95_test_vectors.md 2.3. -/
theorem test_getcap :
    (after .getcap ready3).resps = [{ capv := 4096 }] ∧
    (after .getcap { ready3 with id := 0x00350000 }).resps = [{ capv := 9223372036854775808 }] := by decide

/-- 95_test_vectors.md 2.4. -/
theorem test_rdsr :
    (after .rdsr ready3).resps = [{ sr := 0x02 }] ∧ (after .rdsr State.reset).resps = [{ sr := 0xFF }] ∧
    (after .rdsr (scripted (.err (-5)))).resps = [{ sr := 0xFF }] := by decide

/-- 95_test_vectors.md 2.4: `WREN; WRSR 0xFF`. -/
theorem test_wrsr :
    (after (.wrsr 0xFF) ready3).env.chip.status = 0x8C ∧
    (after (.wrsr 0xFF) ready3).trace = [⟨.xfer 1 [0x01, 0xFF], .count 2⟩] := by decide

/-- 95_test_vectors.md 2.4: `WRSR 0x8C` without WREN is discarded, and still answered OK. -/
theorem test_wrsr_without_latch :
    (after (.wrsr 0x8C) (after .wrdi ready3)).env.chip.status = 0x00 ∧
    (after (.wrsr 0x8C) (after .wrdi ready3)).resps = [{}, {}] := by decide

/-- 95_test_vectors.md 2.4. -/
theorem test_wren :
    (after .wren (scripted (.err (-1)))).resps = [{ err := .transferError, xcode := -1 }] ∧
    (after .wren ready3).trace = [⟨.xfer 1 [0x06], .count 1⟩] ∧
    (after .wren { ready3 with env := { link := .reference [] } }).env.chip.wel = true := by decide

/-- 95_test_vectors.md 2.4. -/
theorem test_wrdi :
    (after .wrdi ready3).env.chip.wel = false ∧ (after .wrdi ready3).trace = [⟨.xfer 1 [0x04], .count 1⟩] := by decide

/-- 95_test_vectors.md 2.5: rollover at the top of a 4096-byte chip. -/
theorem test_write :
    (after (.write 0x0FFF true [0x01, 0x02]) ready3).trace = [⟨.xfer 1 [0x02, 0x0F, 0xFF, 0x01, 0x02], .count 5⟩] ∧
    (after (.write 0x0FFF true [0x01, 0x02]) ready3).env.chip.mem = [(0x000, 0x02), (0xFFF, 0x01)] ∧
    (after (.write 0x0FFF true [0x01, 0x02]) ready3).resps = [{ res := 5 }] := by decide

/-- 95_test_vectors.md 2.5 with FRAME_CAP 8, and P4: with the width of another chip the data byte goes as an address. -/
theorem test_write_edges :
    (after (.write 0x10 true [1, 2, 3, 4, 5, 6]) (capped ready3)).resps = [{ err := .allocationFailure }] ∧
    (after (.write 0x10 true [1, 2, 3, 4, 5]) (capped ready3)).resps = [{ res := 8 }] ∧
    (after (.write 0x0100 true [0x77]) { ready4 with afw := .w3 }).env.chip.mem = [] ∧
    (after (.write 0x0100 true [0x77]) { ready4 with afw := .w3 }).env.chip.wel = false := by decide

/-- 95_test_vectors.md 2.5: the device wraps 0x1234 to 0x234. -/
theorem test_read :
    (after (.read 0x1234 1) { ready3 with env := { ready3.env with chip := { ready3.env.chip with mem := [(0x234, 0x5C)] } } }).trace
      = [⟨.xferFull 1 [0x03, 0x12, 0x34, 0x00], .full 4 [0x00, 0x00, 0x00, 0x5C]⟩] ∧
    (after (.read 0x1234 1) { ready3 with env := { ready3.env with chip := { ready3.env.chip with mem := [(0x234, 0x5C)] } } }).resps
      = [{ res := 4, data := [0x5C] }] := by decide

/-- 95_test_vectors.md 2.5. -/
theorem test_read_errors :
    (after (.read 0x10 (-2147483648)) ready3).resps = [{ err := .invalidArgument }] ∧
    (after (.read 0x10 5) (capped ready4)).resps = [{ err := .allocationFailure }] ∧
    (after (.read 0x10 1) (scripted (.err (-7)))).resps = [{ err := .transferError, xcode := -7 }] := by decide

/-- 95_test_vectors.md 2.6: CMD 0x12 on any state. -/
theorem test_reserved_is_illegal :
    (stepped { ready3 with host := [{ cmd := 0x12 }] }).resps = [{ err := .illegalRequest }] ∧
    (stepped { ready3 with host := [{ cmd := 0x12 }] }).handle = ready3.handle := by decide

/-- spec/70_reset_and_hazards.md R232: a reset in mid-request. -/
theorem test_reset_in_mid_request :
    (stepped { identifying (.ok {}) with rst := true }).handle = Handle.empty ∧
    (stepped { identifying (.ok {}) with rst := true }).resps = [] := by decide

/-- spec/70_reset_and_hazards.md R232: a reset that meets a `Close` in flight. -/
theorem test_reset_meets_a_close :
    (stepped { destroying (.reference []) with rst := true }).handle = Handle.empty ∧
    (stepped { destroying (.reference []) with rst := true }).resps = [] := by decide

/-- A request placed by `withFetchWord` runs as the first one after reset: WREN answers InvalidHandle (95_test_vectors.md P3). -/
theorem test_first_request_after_reset :
    (stepped (State.reset.withFetchWord 8 0x32)).resps = [{ err := .invalidHandle }] := by decide

/-! ### Witnesses: encoding -/

theorem witness_DecodeEncodeAgree :
    (Instr.write 0xFFFFFFFF true [0xFF]).wellFormed = true ∧ (Instr.write 0 false []).wellFormed = true ∧
    (Instr.read 0 (-1)).wellFormed = true := ⟨rfl, rfl, rfl⟩

theorem witness_AssemblerFormsReadBack :
    (Instr.init 0 0 (-1) 0xFFFFFFFF).wellFormed = true ∧ (Instr.write 7 false []).wellFormed = true := ⟨rfl, rfl⟩

theorem witness_WidthIsChosenByDensity : 3 < (4 : Byte).toNat ∧ (3 : Byte).toNat ≤ 3 := by decide

theorem witness_FrameLengths :
    ∃ c tx, Afw.w3 ≠ .unset ∧ readyCall Config.default 1 .w3 (.read 5 1) = some c ∧ c.frame = some tx :=
  ⟨_, _, by decide, rfl, rfl⟩

/-- Addresses that differ in bit 16 only, at width 3 (95_test_vectors.md 2.1). -/
theorem witness_HighAddressBitsAreDropped :
    ready3.afw ≠ .unset ∧
    (0x0001FFFF : U32).toNat % 2 ^ (8 * (ready3.afw.code - 1)) = (0x0000FFFF : U32).toNat % 2 ^ (8 * (ready3.afw.code - 1)) ∧
    (after (.write 0x0001FFFF true [1]) ready3).seq = .idle ∧
    exec (.write 0x0001FFFF true [1]) ready3 = .next (after (.write 0x0001FFFF true [1]) ready3) ∧
    (after (.read 0x0001FFFF 1) ready3).seq = .idle ∧
    exec (.read 0x0001FFFF 1) ready3 = .next (after (.read 0x0001FFFF 1) ready3) :=
  ⟨by decide, by decide, by decide, rfl, by decide, rfl⟩

/-! ### Witnesses: steps -/

theorem witness_StepRunsTheDecodedRequest :
    (∃ q rest i, { State.reset with host := [{ cmd := 0x20 }] }.rst = false ∧ State.reset.seq = .idle ∧
      { State.reset with host := [{ cmd := 0x20 }] }.host = q :: rest ∧ decode q = .ok i) ∧
    decodeTableWord 8 0x41 = some (.read 0 0) := ⟨⟨_, _, _, rfl, rfl, rfl, rfl⟩, rfl⟩

theorem witness_BusySequencerHoldsTheHost :
    (opening .silent).rst = false ∧ (∃ i k, (opening .silent).seq = .busy i k) ∧
    step (opening .silent) = .next (stepped (opening .silent)) := ⟨rfl, ⟨_, _, rfl⟩, rfl⟩

theorem witness_IdleWithoutRequestWaits :
    State.reset.rst = false ∧ State.reset.seq = .idle ∧ State.reset.host = [] := ⟨rfl, rfl, rfl⟩

theorem witness_ReservedCmdIsIllegalRequest :
    ∃ q rest, { ready3 with host := [{ cmd := 0xFF }] }.rst = false ∧ ready3.seq = .idle ∧
      { ready3 with host := [{ cmd := 0xFF }] }.host = q :: rest ∧ q.cmd ∉ assignedCmds :=
  ⟨_, _, rfl, rfl, rfl, by decide⟩

theorem witness_ResetClearsTheRegisters : { ready3 with rst := true }.rst = true ∧ ready3.call = none := ⟨rfl, rfl⟩

theorem witness_ResetAbandonsTheRequest :
    ∃ i k c, { stepped (identifying .silent) with rst := true }.rst = true ∧
      { stepped (identifying .silent) with rst := true }.seq = .busy i k ∧
      { stepped (identifying .silent) with rst := true }.call = some c ∧
      { destroying .draws with rst := true }.seq = .busy .destroy 0 ∧
      { destroying .draws with rst := true }.call = some (.close 1) := ⟨_, _, _, rfl, rfl, rfl, rfl, rfl⟩

/-! ### Witnesses: the requests -/

/-- `Close` absent, done, waiting and never done; the second time from step 0 of the busy sequencer. -/
theorem witness_InitReleasesTheHandle :
    State.reset.seq = .idle ∧ State.reset.hnd = none ∧ ready3.seq = .idle ∧ ready3.hnd = some 1 ∧
    (∃ e, ready3.env.close = (.done, e)) ∧ (∃ e, (scripted .silent).env.close = (.waits, e)) ∧
    (∃ e, { ready3 with env := { link := .script [] } }.env.close = (.never, e)) ∧
    (after (.init 0 0 (-1) 5000000) (scripted .silent)).seq = .busy (.init 0 0 (-1) 5000000) 0 ∧
    (after (.init 0 0 (-1) 5000000) (scripted .silent)).hnd = some 1 :=
  ⟨rfl, rfl, rfl, rfl, ⟨_, rfl⟩, ⟨_, rfl⟩, ⟨_, rfl⟩, rfl, rfl⟩

theorem witness_InitOpensTheTransport :
    (∃ e, (opening (.ok { token := 2 })).seq = .busy (.init 0 0 (-1) 5000000) 1 ∧
      (opening (.ok { token := 2 })).env.openBus = (.ok 2, e)) ∧
    (∃ e, (opening (.err (-2))).env.openBus = (.err (-2), e)) ∧
    (∃ e, (opening .silent).env.openBus = (.silent, e)) := ⟨⟨_, rfl, rfl⟩, ⟨_, rfl⟩, ⟨_, rfl⟩⟩

theorem witness_InitReadsTheIdentifier :
    let ok := identifying (.ok { code := 5, rx := [0x00, 0xC2, 0x7F, 0x02, 0x08] })
    (∃ c rx e, ok.seq = .busy (.init 0 0 (-1) 5000000) 2 ∧ ok.hnd = some 1 ∧
      ok.env.xferFull ok.par [ok.par.opcRdid, 0, 0, 0, 0] = (.ok (c, rx), e) ∧ rx.length = 5) ∧
    (∃ e, (identifying (.err (-3))).env.xferFull ok.par [ok.par.opcRdid, 0, 0, 0, 0] = (.err (-3), e)) ∧
    (∃ e, (identifying .silent).env.xferFull ok.par [ok.par.opcRdid, 0, 0, 0, 0] = (.silent, e)) ∧
    (∃ e, (closing (.reference [])).hnd = some 1 ∧ (closing (.reference [])).seq = .busy (.init 0 0 (-1) 5000000) 3 ∧
      (closing (.reference [])).env.close = (.done, e)) ∧
    (∃ e, (closing (.reference [.hang])).env.close = (.waits, e)) :=
  ⟨⟨_, _, _, rfl, rfl, rfl, rfl⟩, ⟨_, rfl⟩, ⟨_, rfl⟩, ⟨_, rfl, rfl, rfl⟩, ⟨_, rfl⟩⟩

/-- From a READY handle, whose `Close` is done, and from a fresh one. -/
theorem witness_InitRunsToReady :
    (∃ h c rx e0 e1 e2, ready3.seq = .idle ∧ ready3.hnd ≠ none ∧ ready3.env.close = (.done, e0) ∧
      e0.openBus = (.ok h, e1) ∧
      e1.xferFull ready3.par [ready3.par.opcRdid, 0, 0, 0, 0] = (.ok (c, rx), e2) ∧ rx.length = 5) ∧
    (∃ h c rx e1 e2, { ready3 with hnd := none }.seq = .idle ∧ { ready3 with hnd := none }.env.openBus = (.ok h, e1) ∧
      e1.xferFull ready3.par [ready3.par.opcRdid, 0, 0, 0, 0] = (.ok (c, rx), e2) ∧ rx.length = 5) :=
  ⟨⟨_, _, _, _, _, _, rfl, by decide, rfl, rfl, rfl, rfl⟩, ⟨_, _, _, _, _, rfl, rfl, rfl, rfl⟩⟩

/-- `Close` absent, done, waiting and never done; and a waiting DESTROY over a transport that keeps its duties. -/
theorem witness_DestroyReleasesTheHandle :
    State.reset.hnd = none ∧ ready3.hnd = some 1 ∧ (∃ e, ready3.env.close = (.done, e)) ∧
    (∃ e, (scripted .silent).env.close = (.waits, e)) ∧
    (∃ e, { ready3 with env := { link := .script [] } }.env.close = (.never, e)) ∧
    (destroying (.reference [.hang])).rst = false ∧ (destroying (.reference [.hang])).seq = .busy .destroy 0 ∧
    (destroying (.reference [.hang])).hnd = some 1 ∧ (destroying (.reference [.hang])).env.link.dutiful :=
  ⟨rfl, rfl, ⟨_, rfl⟩, ⟨_, rfl⟩, ⟨_, rfl⟩, rfl, rfl, rfl, trivial⟩

theorem witness_RdidReadsTheIdentifier :
    State.reset.life = .unbound ∧ ready3.life = .ready ∧ ready3.hnd = some 1 ∧
    (∃ c rx e, ready3.env.xferFull ready3.par [ready3.par.opcRdid, 0, 0, 0, 0] = (.ok (c, rx), e) ∧ rx.length = 5) ∧
    (∃ e, (scripted (.err (-4))).env.xferFull ready3.par [ready3.par.opcRdid, 0, 0, 0, 0] = (.err (-4), e)) ∧
    (∃ e, (scripted .silent).env.xferFull ready3.par [ready3.par.opcRdid, 0, 0, 0, 0] = (.silent, e)) :=
  ⟨rfl, rfl, rfl, ⟨_, _, _, rfl, rfl⟩, ⟨_, rfl⟩, ⟨_, rfl⟩⟩

/-- The last density that fits in 64 bits and the first that does not (95_test_vectors.md 2.3). -/
theorem witness_GetcapComputesTheCapacity :
    State.reset.life = .unbound ∧ ready3.life = .ready ∧
    2 ^ ((dens (0x00350000 : U32)).toNat + 10) < 2 ^ ready3.par.capBits ∧
    2 ^ ready3.par.capBits ≤ 2 ^ ((dens (0x00360000 : U32)).toNat + 10) := by decide

theorem witness_RdsrReadsTheStatus :
    State.reset.life = .unbound ∧ ready3.life = .ready ∧ ready3.hnd = some 1 ∧
    (∃ c b0 b1 e, (scripted (.ok { code := 2, rx := [0x00, 0x02] })).env.xferFull ready3.par [ready3.par.opcRdsr, 0] =
      (.ok (c, [b0, b1]), e)) ∧
    (∃ e, (scripted (.err (-5))).env.xferFull ready3.par [ready3.par.opcRdsr, 0] = (.err (-5), e)) ∧
    (∃ e, (scripted .silent).env.xferFull ready3.par [ready3.par.opcRdsr, 0] = (.silent, e)) :=
  ⟨rfl, rfl, rfl, ⟨_, _, _, _, rfl⟩, ⟨_, rfl⟩, ⟨_, rfl⟩⟩

theorem witness_WrsrSendsTheValue :
    State.reset.life = .unbound ∧ ready3.life = .ready ∧ ready3.hnd = some 1 ∧
    (∃ n e, ready3.env.xfer ready3.par [ready3.par.opcWrsr, 0x8C] = (.ok n, e)) ∧
    (∃ e, (scripted (.err (-9))).env.xfer ready3.par [ready3.par.opcWrsr, 0x8C] = (.err (-9), e)) ∧
    (∃ e, (scripted .silent).env.xfer ready3.par [ready3.par.opcWrsr, 0x8C] = (.silent, e)) :=
  ⟨rfl, rfl, rfl, ⟨_, _, rfl⟩, ⟨_, rfl⟩, ⟨_, rfl⟩⟩

theorem witness_WrenSendsItsOpcode :
    State.reset.life = .unbound ∧ ready3.life = .ready ∧ ready3.hnd = some 1 ∧
    (∃ n e, ready3.env.xfer ready3.par [ready3.par.opcWren] = (.ok n, e)) ∧
    (∃ e, (scripted (.err (-1))).env.xfer ready3.par [ready3.par.opcWren] = (.err (-1), e)) ∧
    (∃ e, (scripted .silent).env.xfer ready3.par [ready3.par.opcWren] = (.silent, e)) :=
  ⟨rfl, rfl, rfl, ⟨_, _, rfl⟩, ⟨_, rfl⟩, ⟨_, rfl⟩⟩

theorem witness_WrdiSendsItsOpcode :
    State.reset.life = .unbound ∧ ready3.life = .ready ∧ ready3.hnd = some 1 ∧
    (∃ n e, ready3.env.xfer ready3.par [ready3.par.opcWrdi] = (.ok n, e)) ∧
    (∃ e, (scripted (.err (-1))).env.xfer ready3.par [ready3.par.opcWrdi] = (.err (-1), e)) ∧
    (∃ e, (scripted .silent).env.xfer ready3.par [ready3.par.opcWrdi] = (.silent, e)) :=
  ⟨rfl, rfl, rfl, ⟨_, _, rfl⟩, ⟨_, rfl⟩, ⟨_, rfl⟩⟩

/-- FRAME_CAP 8 just too small and just large enough (95_test_vectors.md 2.5). -/
theorem witness_WriteSendsTheData :
    let tx := (capped ready3).par.opcWrite :: addrBytes 0x10 (ready3.afw.code - 1) ++ [1, 2, 3, 4, 5]
    State.reset.life = .unbound ∧ ready3.life = .ready ∧ ready3.afw ≠ .unset ∧ ready3.hnd = some 1 ∧
    (capped ready3).par.fits (ready3.afw.code + ([1, 2, 3, 4, 5, 6] : Bytes).length) = false ∧
    (capped ready3).par.fits (ready3.afw.code + ([1, 2, 3, 4, 5] : Bytes).length) = true ∧
    (∃ n e, (capped ready3).env.xfer (capped ready3).par tx = (.ok n, e)) ∧
    (∃ e, (scripted (.err (-7))).env.xfer ready3.par tx = (.err (-7), e)) ∧
    (∃ e, (scripted .silent).env.xfer ready3.par tx = (.silent, e)) :=
  ⟨rfl, rfl, by decide, rfl, by decide, by decide, ⟨_, _, rfl⟩, ⟨_, rfl⟩, ⟨_, rfl⟩⟩

/-- LEN 0 and 1, and FRAME_CAP 8 just too small and just large enough (95_test_vectors.md 2.5). -/
theorem witness_ReadReturnsThePayload :
    let tx := (capped ready4).par.opcRead :: addrBytes 0x10 (ready4.afw.code - 1) ++ List.replicate (4 : I32).toInt.toNat 0x00
    State.reset.life = .unbound ∧ ready4.life = .ready ∧ ready4.afw ≠ .unset ∧ ready4.hnd = some 1 ∧
    (0 : I32).toInt ≤ 0 ∧ 0 < (1 : I32).toInt ∧
    (capped ready4).par.fits (ready4.afw.code + (5 : I32).toInt.toNat) = false ∧
    (capped ready4).par.fits (ready4.afw.code + (4 : I32).toInt.toNat) = true ∧
    (∃ c e, (capped ready4).env.xferFull (capped ready4).par tx = (.ok (c, [0, 0, 0, 0] ++ [0, 0, 0, 0]), e)) ∧
    (∃ e, (scripted (.err (-7))).env.xferFull ready4.par tx = (.err (-7), e)) ∧
    (∃ e, (scripted .silent).env.xferFull ready4.par tx = (.silent, e)) :=
  ⟨rfl, rfl, by decide, rfl, by decide, by decide, by decide, by decide, ⟨_, _, rfl⟩, ⟨_, rfl⟩, ⟨_, rfl⟩⟩

theorem witness_WrongReplyLengthIsRefused :
    let s := scripted (.ok { code := 1, rx := [0x00] })
    let u := identifying (.ok { code := 5, rx := [0x00, 0xC2, 0x7F, 0x02] })
    let v := closing (.script [])
    (∃ tx c rx e, s.life = .ready ∧ s.hnd = some 1 ∧ readyCall s.par 1 s.afw .rdsr = some (.xferFull 1 tx) ∧
      s.sendable .rdsr ∧ s.env.xferFull s.par tx = (.ok (c, rx), e) ∧ rx.length ≠ tx.length) ∧
    (∃ c rx e, u.seq = .busy (.init 0 0 (-1) 5000000) 2 ∧ u.hnd = some 1 ∧
      u.env.xferFull u.par [u.par.opcRdid, 0, 0, 0, 0] = (.ok (c, rx), e) ∧ rx.length ≠ 5) ∧
    (∃ e, v.seq = .busy (.init 0 0 (-1) 5000000) 3 ∧ v.hnd = some 1 ∧ v.env.close = (.never, e)) :=
  ⟨⟨_, _, _, _, rfl, rfl, rfl, trivial, rfl, by decide⟩, ⟨_, _, _, rfl, rfl, rfl, by decide⟩, ⟨_, rfl, rfl, rfl⟩⟩

/-! ### Witnesses: rules about every request -/

theorem witness_EmptyTransfersInvokeNoTransport :
    (∃ r, exec (.read 0x10 (-1)) ready3 = .next (after (.read 0x10 (-1)) ready3) ∧
      (after (.read 0x10 (-1)) ready3).resps = ready3.resps ++ [r] ∧ r.err = .invalidArgument) ∧
    ready3.life = .ready := ⟨⟨_, rfl, rfl, rfl⟩, rfl⟩

theorem witness_RdsrNeverReportsAnError :
    ∃ call c, exec .rdsr (scripted (.err (-5))) = .next (after .rdsr (scripted (.err (-5)))) ∧
      (after .rdsr (scripted (.err (-5)))).seq = .idle ∧
      (after .rdsr (scripted (.err (-5)))).trace = (scripted (.err (-5))).trace ++ [⟨call, .failed c⟩] :=
  ⟨_, _, rfl, rfl, rfl⟩

theorem witness_CodesPassVerbatim :
    (∃ r call n, exec .wren ready3 = .next (after .wren ready3) ∧ (after .wren ready3).resps = ready3.resps ++ [r] ∧
      (after .wren ready3).trace = ready3.trace ++ [⟨call, .count n⟩]) ∧
    (∃ r call c rx, exec .rdid ready3 = .next (after .rdid ready3) ∧ (after .rdid ready3).resps = ready3.resps ++ [r] ∧
      (after .rdid ready3).trace = ready3.trace ++ [⟨call, .full c rx⟩]) ∧
    (∃ r call c, (after (.init 0 0 (-1) 5000000) (opening (.err (-2)))).resps = (opening (.err (-2))).resps ++ [r] ∧
      (after (.init 0 0 (-1) 5000000) (opening (.err (-2)))).trace = (opening (.err (-2))).trace ++ [⟨call, .failed c⟩]) ∧
    (∃ r h, (after (.init 0 0 (-1) 5000000) (closing (.reference []))).resps = (closing (.reference [])).resps ++ [r] ∧
      (after (.init 0 0 (-1) 5000000) (closing (.reference []))).trace =
        (closing (.reference [])).trace ++ [⟨.close h, .closed⟩]) ∧
    (∃ call c, (after (.init 0 0 (-1) 5000000) (identifying (.err (-3)))).resps = (identifying (.err (-3))).resps ∧
      (after (.init 0 0 (-1) 5000000) (identifying (.err (-3)))).trace =
        (identifying (.err (-3))).trace ++ [⟨call, .failed c⟩]) :=
  ⟨⟨_, _, _, rfl, rfl, rfl⟩, ⟨_, _, _, _, rfl, rfl, rfl⟩, ⟨_, _, _, rfl, rfl⟩, ⟨_, _, rfl, rfl⟩, ⟨_, _, rfl, rfl⟩⟩

theorem witness_OneResponseForEachRequest :
    exec .wren ready3 = .next (after .wren ready3) ∧
    exec .wren (scripted .silent) = .next (after .wren (scripted .silent)) := ⟨rfl, rfl⟩

theorem witness_ErrorsLeaveTheRegisters :
    ∃ r, exec .rdid (scripted (.err (-4))) = .next (after .rdid (scripted (.err (-4)))) ∧
      (after .rdid (scripted (.err (-4)))).resps = (scripted (.err (-4))).resps ++ [r] ∧ r.err ≠ .ok :=
  ⟨_, rfl, rfl, by decide⟩

theorem witness_AccessRights :
    exec (.wrsr 0x8C) ready3 = .next (after (.wrsr 0x8C) ready3) ∧ isLifecycle (.wrsr 0x8C) = false := ⟨rfl, rfl⟩

/-- One witness for the running request at each step of INIT, one for DESTROY done and one for it waiting, one for waiting. -/
theorem witness_WidthTransitions :
    step (identifying (.err (-3))) = .next (stepped (identifying (.err (-3)))) ∧
    (identifying (.err (-3))).runs (.init 0 0 (-1) 5000000) ∧
    (stepped (identifying (.err (-3)))).resps = (identifying (.err (-3))).resps ∧
    step (closing (.reference [])) = .next (stepped (closing (.reference []))) ∧
    (closing (.reference [])).runs (.init 0 0 (-1) 5000000) ∧
    (∃ r, (stepped (closing (.reference []))).resps = (closing (.reference [])).resps ++ [r] ∧ r.err ≠ .ok) ∧
    (opening (.err (-2))).runs (.init 0 0 (-1) 5000000) ∧ (opening (.err (-2))).afw = .unset ∧
    { ready3 with host := [{ cmd := 0x10 }] }.runs (.init 0 0 0 0) ∧
    { ready3 with host := [{ cmd := 0x11 }] }.runs .destroy ∧
    (stepped { ready3 with host := [{ cmd := 0x11 }] }).seq = .idle ∧
    (destroying (.reference [.hang])).runs .destroy ∧
    (stepped (destroying (.reference [.hang]))).seq = .busy .destroy 0 ∧ (∀ i, ¬ State.reset.runs i) ∧
    step { ready3 with rst := true } = .next (stepped { ready3 with rst := true }) :=
  ⟨rfl, .inl ⟨_, rfl⟩, rfl, rfl, .inl ⟨_, rfl⟩, ⟨_, rfl, by decide⟩, .inl ⟨_, rfl⟩, rfl, .inr ⟨rfl, _, _, rfl, rfl⟩,
    .inr ⟨rfl, _, _, rfl, rfl⟩, rfl, .inl ⟨_, rfl⟩, rfl,
    (by rintro i (⟨k, h⟩ | ⟨_, q, rest, h, _⟩) <;> cases h), rfl⟩

theorem witness_LifecycleTransitions :
    let s := identifying (.ok { code := 5, rx := [0x00, 0xC2, 0x7F, 0x02, 0x08] })
    step s = .next (stepped s) ∧ s.rst = false ∧ s.runs (.init 0 0 (-1) 5000000) ∧
    (∃ r, (stepped s).resps = s.resps ++ [r] ∧ r.err = .ok) ∧ (∀ i, ¬ State.reset.runs i) :=
  ⟨rfl, rfl, .inl ⟨_, rfl⟩, ⟨_, rfl, rfl⟩, by rintro i (⟨k, h⟩ | ⟨_, q, rest, h, _⟩) <;> cases h⟩

theorem witness_CallsPassTheHeldToken :
    exec .wren ready3 = .next (after .wren ready3) ∧
    (∃ e ∈ (after .wren ready3).trace.drop ready3.trace.length, ∃ h, e.call.token = some h) ∧
    (∃ c h, (scripted .silent).call = none ∧ (after .wren (scripted .silent)).call = some c ∧ c.token = some h) :=
  ⟨rfl, ⟨_, .head _, _, rfl⟩, ⟨_, _, rfl, rfl, rfl⟩⟩

theorem witness_CallsAreTotallyOrdered :
    step (identifying (.err (-3))) = .next (stepped (identifying (.err (-3)))) ∧
    (stepped (identifying (.err (-3)))).trace.length = 1 := ⟨rfl, rfl⟩

theorem witness_EachRequestMakesItsOneCall :
    isLifecycle (.read 0x10 1) = false ∧ exec (.read 0x10 1) ready3 = .next (after (.read 0x10 1) ready3) := ⟨rfl, rfl⟩

/-- Two replies to RDSR that differ in the dummy byte, and two to READ that differ in the header. -/
theorem witness_UnusedReplyBytesAreIgnored :
    let s := scripted (.ok { code := 2, rx := [0x00, 0x02] })
    let s' := { s with env := (scripted (.ok { code := 2, rx := [0xFF, 0x02] })).env }
    let u := scripted (.ok { code := 4, rx := [0x00, 0x00, 0x00, 0x5C] })
    let u' := { u with env := (scripted (.ok { code := 4, rx := [0xAA, 0xBB, 0xCC, 0x5C] })).env }
    (∃ tx c rx rx' e e', s.life = .ready ∧ s.hnd = some 1 ∧ readyCall s.par 1 s.afw .rdsr = some (.xferFull 1 tx) ∧
      s.env.xferFull s.par tx = (.ok (c, rx), e) ∧ s'.env.xferFull s.par tx = (.ok (c, rx'), e') ∧
      rx.drop 1 = rx'.drop 1 ∧ exec .rdsr s = .next (after .rdsr s) ∧ exec .rdsr s' = .next (after .rdsr s')) ∧
    (∃ tx c rx rx' e e', readyCall u.par 1 u.afw (.read 0x10 1) = some (.xferFull 1 tx) ∧
      u.env.xferFull u.par tx = (.ok (c, rx), e) ∧ u'.env.xferFull u.par tx = (.ok (c, rx'), e') ∧
      rx.drop u.afw.code = rx'.drop u.afw.code ∧ exec (.read 0x10 1) u = .next (after (.read 0x10 1) u) ∧
      exec (.read 0x10 1) u' = .next (after (.read 0x10 1) u')) :=
  ⟨⟨_, _, _, _, _, _, rfl, rfl, rfl, rfl, rfl, rfl, rfl, rfl⟩, ⟨_, _, _, _, _, _, rfl, rfl, rfl, rfl, rfl, rfl⟩⟩

/-! ### Witnesses: the invariant -/

theorem memOk_nil (idb : IdBytes) (w : Bool) : Chip.memOk { wel := w, idb := idb } := ⟨rfl, by simp⟩

theorem ready3_inv : ready3.Inv :=
  ⟨by decide, ⟨rfl, rfl, rfl⟩, ⟨rfl, rfl, .inr ⟨rfl, rfl, by decide⟩⟩, memOk_nil _ _, .inl rfl, .inl rfl⟩

/-- The busy positions of the invariant, a held failure code and a drawn `Close` among them. -/
theorem closing_inv : (closing (.reference [])).Inv :=
  ⟨by decide, ⟨rfl, rfl, rfl⟩, ⟨rfl, 1, by decide, .inl rfl⟩, memOk_nil _ _, .inr ⟨_, _, _, _, rfl⟩, .inl rfl⟩

theorem destroying_inv : { destroying .draws with env := { link := .draws, closeLeft := some 2 } }.Inv :=
  ⟨by decide, ⟨rfl, rfl, rfl⟩, ⟨rfl, rfl, ⟨rfl, rfl, by decide⟩, 1, rfl, rfl, rfl⟩, memOk_nil _ _, .inl rfl,
    .inr ⟨rfl, 1, rfl⟩⟩

theorem witness_FramesStayAllowed :
    let s := { ready3 with host := [{ cmd := 0x32 }] }
    s.Inv ∧ s.traceOk ∧ step s = .next (stepped s) :=
  ⟨⟨by decide, ⟨rfl, rfl, rfl⟩, ⟨rfl, rfl, .inr ⟨rfl, rfl, by decide⟩⟩, memOk_nil _ _, .inl rfl, .inl rfl⟩, by rintro e ⟨⟩, rfl⟩

theorem witness_StepKeepsTheInvariant :
    let s := { ready3 with host := [{ cmd := 0x40, addr := 0x10, dpres := true, data := [0x99] }] }
    s.Inv ∧ step s = .next (stepped s) :=
  ⟨⟨by decide, ⟨rfl, rfl, rfl⟩, ⟨rfl, rfl, .inr ⟨rfl, rfl, by decide⟩⟩, memOk_nil _ _, .inl rfl, .inl rfl⟩, rfl⟩

theorem witness_GoodStatesAlwaysStep : ready3.Inv ∧ ready3.env.link.dutiful := ⟨ready3_inv, trivial⟩

theorem witness_IdleReadyMeansHandleAndWidth : ready3.Inv ∧ ready3.seq = .idle := ⟨ready3_inv, rfl⟩

theorem witness_MissingTokenOrWidthStopsByName :
    let s := { ready3 with hnd := none }
    let u := { ready3 with afw := Afw.unset }
    (s.life = .ready ∧ s.hnd = none ∧ (readyCall s.par 1 s.afw .wren).isSome = true ∧ s.sendable .wren) ∧
    (∃ v : State, v.seq = .busy (.init 0 0 0 0) 2 ∧ v.hnd = none) ∧
    (∃ v : State, v.seq = .busy (.init 0 0 0 0) 3 ∧ v.hnd = none) ∧
    (u.life = .ready ∧ u.afw = .unset ∧ ([1] : Bytes) ≠ [] ∧ 0 < (1 : I32).toInt) :=
  ⟨⟨rfl, rfl, rfl, trivial⟩, ⟨{ State.reset with seq := .busy (.init 0 0 0 0) 2 }, rfl, rfl⟩,
    ⟨{ State.reset with seq := .busy (.init 0 0 0 0) 3 }, rfl, rfl⟩, ⟨rfl, rfl, by decide, by decide⟩⟩

/-! ### Witnesses: the reference device -/

/-- Data that rolls over at the top of a 4096-byte chip (95_test_vectors.md 2.5), from an address with a dropped bit. -/
theorem witness_WriteThenReadReturnsTheData :
    ready3.life = .ready ∧ ready3.hnd = some 1 ∧ ready3.par.wf = true ∧ ready3.env.link = .reference [] ∧
    ready3.env.chip.memOk ∧ ready3.env.chip.wel = true ∧ ready3.afw.code = ready3.env.chip.ndev + 1 ∧
    ([0x01, 0x02] : Bytes) ≠ [] ∧ ([0x01, 0x02] : Bytes).length ≤ ready3.env.chip.cap ∧
    ([0x01, 0x02] : Bytes).length < 2 ^ 31 ∧ ready3.par.fits (ready3.afw.code + ([0x01, 0x02] : Bytes).length) = true :=
  ⟨rfl, rfl, by decide, rfl, memOk_nil _ _, rfl, by decide, by decide, by decide, by decide, by decide⟩

theorem witness_HonouredWriteStoresItsBlock :
    ready3.life = .ready ∧ ready3.hnd = some 1 ∧ ready3.par.wf = true ∧ ready3.env.link = .reference [] ∧
    ready3.env.chip.memOk ∧ ready3.env.chip.wel = true ∧ ready3.afw.code = ready3.env.chip.ndev + 1 ∧
    ([0x01, 0x02] : Bytes) ≠ [] ∧ ([0x01, 0x02] : Bytes).length ≤ ready3.env.chip.cap ∧
    ready3.par.fits (ready3.afw.code + ([0x01, 0x02] : Bytes).length) = true ∧
    exec (.write 0x0FFF true [0x01, 0x02]) ready3 = .next (after (.write 0x0FFF true [0x01, 0x02]) ready3) :=
  ⟨rfl, rfl, by decide, rfl, memOk_nil _ _, rfl, by decide, by decide, by decide, by decide, rfl⟩

/-- The same with data longer than the chip, whose capacity is 1024 bytes at density 0. -/
theorem witness_HonouredWriteStoresItsBlock_beyond_the_array :
    let s := { ready3 with env := { link := .reference [], chip := { wel := true, idb := ⟨0xC2, 0x7F, 0x00, 0x08⟩ } } }
    s.env.chip.cap < (List.replicate 1025 (0x5A : Byte)).length ∧ s.afw.code = s.env.chip.ndev + 1 ∧
    s.par.fits (s.afw.code + (List.replicate 1025 (0x5A : Byte)).length) = true ∧
    ∃ t, exec (.write 0 true (List.replicate 1025 0x5A)) s = .next t :=
  ⟨by simp only [List.length_replicate]; decide, by decide, by simp only [List.length_replicate]; decide, _, rfl⟩

theorem witness_WriteWithoutLatchIsDiscarded :
    let s := after .wrdi ready3
    s.life = .ready ∧ s.hnd = some 1 ∧ s.par.wf = true ∧ s.env.link = .reference [] ∧ s.env.chip.wel = false ∧
    s.sendable (.write 0x10 true [0x99]) ∧ exec (.write 0x10 true [0x99]) s = .next (after (.write 0x10 true [0x99]) s) ∧
    s.sendable (.wrsr 0x8C) ∧ exec (.wrsr 0x8C) s = .next (after (.wrsr 0x8C) s) :=
  ⟨rfl, rfl, by decide, rfl, rfl, ⟨rfl, by decide, by decide, by decide⟩, rfl, trivial, rfl⟩

theorem witness_LatchIsSeenInTheStatus :
    ready3.life = .ready ∧ ready3.hnd = some 1 ∧ ready3.par.wf = true ∧ ready3.env.link = .reference [] :=
  ⟨rfl, rfl, by decide, rfl⟩

theorem witness_WrsrWritesTheWritableBits :
    ready3.life = .ready ∧ ready3.hnd = some 1 ∧ ready3.par.wf = true ∧ ready3.env.link = .reference [] ∧
    ready3.env.chip.wel = true := ⟨rfl, rfl, by decide, rfl, rfl⟩

theorem witness_WhichRequestsClearTheLatch :
    ready3.par.wf = true ∧ ready3.env.link = .reference [] ∧ ready3.env.chip.wel = true ∧
    exec .rdsr ready3 = .next (after .rdsr ready3) ∧ exec .wrdi ready3 = .next (after .wrdi ready3) ∧
    (after .wrdi ready3).trace ≠ ready3.trace := ⟨by decide, rfl, rfl, rfl, rfl, by decide⟩

theorem witness_OnlyWriteChangesTheArray :
    ready3.par.wf = true ∧ (∀ a p d, Instr.wrsr 0x8C ≠ .write a p d) ∧
    exec (.wrsr 0x8C) ready3 = .next (after (.wrsr 0x8C) ready3) := ⟨by decide, by intros; simp, rfl⟩

theorem witness_InitMatchesTheReferenceDevice :
    ready4.seq = .idle ∧ ready4.par.wf = true ∧ ready4.env.link = .reference [] := ⟨rfl, by decide, rfl⟩

theorem witness_FailedTransferLeavesAPrefixOfItsEffect :
    let s := { ready3 with env := { ready3.env with link := .reference [.fail (-7) 4] } }
    ∃ call tx, s.life = .ready ∧ s.hnd = some 1 ∧ s.env.link = .reference (.fail (-7) 4 :: []) ∧
      s.sendable (.write 0x10 true [0x99, 0x98]) ∧ readyCall s.par 1 s.afw (.write 0x10 true [0x99, 0x98]) = some call ∧
      call.frame = some tx :=
  ⟨_, _, rfl, rfl, rfl, ⟨rfl, by decide, by decide, by decide⟩, rfl, rfl⟩

/-- One byte past the top of a 4096-byte chip (95_test_vectors.md 2.5). -/
theorem witness_DeviceReadReturnsTheBlock :
    ready3.life = .ready ∧ ready3.hnd = some 1 ∧ ready3.env.link = .reference [] ∧ ready3.par.wf = true ∧
    ready3.afw.code = ready3.env.chip.ndev + 1 ∧ 0 < (2 : I32).toInt ∧
    ready3.par.fits (ready3.afw.code + (2 : I32).toInt.toNat) = true :=
  ⟨rfl, rfl, rfl, by decide, by decide, by decide, by decide⟩

end Sys2Proof.Tests
end

section
/-! O35 and O36 (00_scope.md R12): what a request that ends puts on the response port, and which code its answered call hands
on. -/

namespace Sys2Proof.Machine

/-! ### One response for each request (O36) -/

/-- R200: a request with a transport call of its own, other than RDSR, may answer InvalidHandle and TransferError. -/
theorem raisedBy_of_readyCall_isSome {p : Config} {h : Token} {w : Afw} {i : Instr} (hc : (readyCall p h w i).isSome)
    (hi : i ≠ .rdsr) : Err.invalidHandle.raisedBy i = true ∧ Err.transferError.raisedBy i = true := by
  cases i with
  | init | destroy | getcap => simp [readyCall] at hc
  | rdsr => exact absurd rfl hi
  | rdid | wrsr | wren | wrdi | write | read => exact ⟨rfl, rfl⟩

/-- A check raises only an error of the request's row in R200. -/
theorem Stops.raisedBy {s : State} {i : Instr} {e : Err} (h : Stops s i e) : e.raisedBy i = true := by
  cases h with
  | handle _ hi =>
    rcases hi with rfl | ⟨_, _, hne, hc⟩
    · rfl
    · exact (raisedBy_of_readyCall_isSome hc hne).1
  | noBuffer | noLength | writeRoom | readRoom => rfl

/-- The response to an answered call has no error and no `XCODE`, or it is a TransferError that the request may raise. -/
theorem Ends.err_cases {s : State} {i : Instr} {rp : Reply} {id : U32} {r : Response} (h : Ends s i rp id r) :
    (r.err = .ok ∧ r.xcode = 0) ∨ (r.err = .transferError ∧ i ≠ .rdsr) := by
  cases h with
  | error hi => exact .inr ⟨rfl, hi⟩
  | sentinel | status | plain | written | ident | data => exact .inl ⟨rfl, rfl⟩

/-- R200: the response's error is one of the request's row, and only a transport's error has an `XCODE`. -/
def Response.allowedFor (r : Response) (i : Instr) : Prop :=
  r.err.raisedBy i = true ∧ (r.xcode ≠ 0 → r.err = .transferError ∨ r.err = .initializationFailure)

theorem Response.allowedFor.of_ok {r : Response} (he : r.err = .ok) (hx : r.xcode = 0) (i : Instr) : r.allowedFor i :=
  ⟨by rw [he]; rfl, fun h => absurd hx h⟩

theorem Ends.allowedFor {s : State} {i : Instr} {rp : Reply} {id : U32} {r : Response} {p : Config} {h : Token} {w : Afw}
    {c : Call} (he : Ends s i rp id r) (hc : readyCall p h w i = some c) : r.allowedFor i := by
  rcases he.err_cases with ⟨hok, hx⟩ | ⟨hte, hi⟩
  · exact .of_ok hok hx i
  · exact ⟨by rw [hte]; exact (raisedBy_of_readyCall_isSome (Option.isSome_of_eq_some hc) hi).2, fun _ => .inl hte⟩

theorem Closed.resps {s s' : State} (h : Closed s s') : s'.resps = s.resps := by
  cases h <;> rfl

/-- A request ends by responding once, or stays busy with no response. -/
theorem Moves.responds_or_busy {s t : State} {i : Instr} (h : Moves s i t) :
    (∃ r s', t = respond r s' ∧ s'.resps = s.resps ∧ r.allowedFor i) ∨
    ((∃ k, t.seq = .busy i k) ∧ t.resps = s.resps) := by
  cases h with
  | stopped hs => exact .inl ⟨_, _, rfl, rfl, hs.raisedBy, fun hx => absurd rfl hx⟩
  | noStatus => exact .inl ⟨_, _, rfl, rfl, .of_ok rfl rfl _⟩
  | capacity => exact .inl ⟨_, _, rfl, rfl, .of_ok rfl rfl _⟩
  | ends _ _ hc _ _ he => exact .inl ⟨_, _, rfl, rfl, he.allowedFor hc⟩
  | destroyed hc => exact .inl ⟨_, _, rfl, hc.resps, .of_ok rfl rfl _⟩
  | openFails | failClosed => exact .inl ⟨_, _, rfl, rfl, rfl, fun _ => .inr rfl⟩
  | identified => exact .inl ⟨_, _, rfl, rfl, .of_ok rfl rfl _⟩
  | released _ hc => exact .inr ⟨⟨_, rfl⟩, hc.resps⟩
  | waits | closeWaits | openWaits | opened | identWaits | identFails => exact .inr ⟨⟨_, rfl⟩, rfl⟩

/-- Settles O36: a request that ends does so through `respond`, once. -/
theorem oneResponseForEachRequest : Obligations.OneResponseForEachRequest := by
  intro s t i h
  rcases (exec_moves h).responds_or_busy with ⟨r, s', rfl, hs, hr⟩ | hb
  · exact .inl ⟨rfl, rfl, rfl, r, by simp [hs], hr⟩
  · exact .inr hb

/-! ### The code an answered call hands on (O35) -/

/-- R34: what the response to request `i` makes of the code in its call's reply. -/
def Response.passesCode (s : State) (i : Instr) (r : Response) : Reply → Prop
  | .opened _ => True
  | .count n => r.err = .ok ∧ r.xcode = 0 ∧ r.res = match i with | .write _ _ _ => n | _ => 0
  | .full c _ => r.err = .ok ∧ r.xcode = 0 ∧ r.res = match i with | .read _ _ => c | _ => 0
  | .failed c => r.res = 0 ∧ r.xcode = if i = .rdsr then 0 else c
  | .closed => r.res = 0 ∧ r.xcode = if i = .destroy then 0 else s.failCode

/-- A step adds at most one response and one answered call, so what holds of those it added holds of any it is said to add. -/
theorem Response.passesCode.of_answer {s t : State} {i : Instr} {r r' : Response} {call call' : Call} {rp rp' : Reply}
    (hr' : t.resps = s.resps ++ [r']) (ht' : t.trace = s.trace ++ [⟨call', rp'⟩]) (hp : r'.passesCode s i rp')
    (hr : t.resps = s.resps ++ [r]) (ht : t.trace = s.trace ++ [⟨call, rp⟩]) : r.passesCode s i rp := by
  obtain rfl : r' = r := by simpa using hr'.symm.trans hr
  obtain ⟨-, rfl⟩ : call' = call ∧ rp' = rp := by simpa using ht'.symm.trans ht
  exact hp

theorem Ends.passesCode {s : State} {i : Instr} {rp : Reply} {id : U32} {r : Response} (h : Ends s i rp id r) :
    r.passesCode s i rp := by
  cases h with
  | error hi => exact ⟨rfl, (if_neg hi).symm⟩
  | plain hi => rcases hi with rfl | rfl | ⟨v, rfl⟩ <;> exact ⟨rfl, rfl, rfl⟩
  | sentinel => exact ⟨rfl, rfl⟩
  | status | written | ident | data => exact ⟨rfl, rfl, rfl⟩

/-- The only call that can be answered while a handle is closed is that `Close`. -/
theorem Closed.reply_eq_closed {s s' : State} (h : Closed s s') {call : Call} {rp : Reply}
    (ht : s'.trace = s.trace ++ [⟨call, rp⟩]) : rp = .closed := by
  cases h with
  | absent => simp at ht
  | closed =>
    obtain ⟨-, rfl⟩ := by simpa only [answered_trace, List.append_cancel_left_eq, List.cons.injEq, Event.mk.injEq,
      and_true] using ht
    rfl

/-- A request that responds at the step its call is answered passes on that call's code. -/
theorem Moves.passesCode {s t : State} {i : Instr} {r : Response} {call : Call} {rp : Reply} (h : Moves s i t)
    (hr : t.resps = s.resps ++ [r]) (ht : t.trace = s.trace ++ [⟨call, rp⟩]) : r.passesCode s i rp := by
  cases h with
  | stopped | noStatus | capacity => simp at ht
  | waits | closeWaits | openWaits | opened | identWaits | identFails => simp at hr
  | released _ hc => simp [hc.resps] at hr
  | ends _ _ _ _ _ he => exact .of_answer rfl rfl he.passesCode hr ht
  | destroyed hc =>
    obtain rfl := hc.reply_eq_closed ht
    exact .of_answer (r' := {}) (congrArg (· ++ [{}]) hc.resps) ht ⟨rfl, rfl⟩ hr ht
  | openFails | failClosed =>
    refine .of_answer rfl rfl ?_ hr ht
    exact ⟨rfl, rfl⟩
  | identified =>
    refine .of_answer rfl rfl ?_ hr ht
    exact ⟨rfl, rfl, rfl⟩

/-- R110: the one failure that is not answered at once is that of INIT's identifier read, whose code is kept for step 3. -/
theorem Moves.keeps_unanswered_failure {s t : State} {i : Instr} {call : Call} {c : I32} (h : Moves s i t)
    (hr : t.resps = s.resps) (ht : t.trace = s.trace ++ [⟨call, .failed c⟩]) : t.failCode = c ∧ t.seq = .busy i 3 := by
  cases h with
  | stopped | noStatus | capacity | ends | openFails | failClosed | identified => simp at hr
  | destroyed hc => simp [hc.resps] at hr
  | released _ hc => cases hc.reply_eq_closed ht
  | waits | closeWaits | openWaits | opened | identWaits => simp at ht
  | identFails =>
    obtain ⟨-, rfl⟩ : _ ∧ _ = c := by simpa using ht
    exact ⟨rfl, rfl⟩

/-- Settles O35: by the reply that ends the request, then by the one failure a request goes on after. -/
theorem codesPassVerbatim : Obligations.CodesPassVerbatim := by
  refine ⟨fun s t i r h hr => ?_, fun s t i call c h hr ht => (exec_moves h).keeps_unanswered_failure hr ht⟩
  have passes : ∀ call rp, t.trace = s.trace ++ [⟨call, rp⟩] → r.passesCode s i rp :=
    fun _ _ ht => (exec_moves h).passesCode hr ht
  exact ⟨fun _ _ ht => passes _ _ ht, fun _ _ _ ht => passes _ _ ht, fun _ _ ht => passes _ _ ht,
    fun _ ht => passes _ _ ht⟩

end Sys2Proof.Machine
end

section
/-! O38, O41 and O42 (10_state.md R25, R27, R29), and the step as the running request's or the accepted one's (O11, O12, O15): what
a step leaves unchanged and which call it answers. -/

namespace Sys2Proof.Machine

/-! ### What a request leaves unchanged -/

theorem Closed.par {s s' : State} (h : Closed s s') : s'.par = s.par := by cases h <;> rfl
theorem Closed.rst {s s' : State} (h : Closed s s') : s'.rst = s.rst := by cases h <;> rfl
theorem Closed.host {s s' : State} (h : Closed s s') : s'.host = s.host := by cases h <;> rfl
theorem Closed.free {s s' : State} (h : Closed s s') : s'.free = s.free := by cases h <;> rfl
theorem Closed.failCode {s s' : State} (h : Closed s s') : s'.failCode = s.failCode := by cases h <;> rfl

/-- Only INIT and DESTROY close the handle. -/
theorem Closes.lifecycle {s : State} {i : Instr} {k : Nat} (h : Closes s i k) : isLifecycle i = true := by
  cases h <;> rfl

/-- An answered call of a request other than RDID leaves `ID`. -/
theorem Ends.id_eq {s : State} {i : Instr} {rp : Reply} {id : U32} {r : Response} (h : Ends s i rp id r)
    (hi : i ≠ .rdid) : id = s.id := by
  cases h with
  | ident => exact absurd rfl hi
  | error | sentinel | status | plain | written | data => rfl

/-- R29: no request writes a parameter, the reset line or the host's requests. -/
theorem Moves.frame {s t : State} {i : Instr} (h : Moves s i t) : t.par = s.par ∧ t.rst = s.rst ∧ t.host = s.host := by
  cases h with
  | destroyed hc | released _ hc => exact ⟨hc.par, hc.rst, hc.host⟩
  | _ => exact ⟨rfl, rfl, rfl⟩

theorem Moves.free_eq {s t : State} {i : Instr} (h : Moves s i t) (hi : i ≠ .getcap) : t.free = s.free := by
  cases h with
  | capacity => exact absurd rfl hi
  | destroyed hc | released _ hc => exact hc.free
  | _ => rfl

theorem Moves.failCode_eq {s t : State} {i : Instr} (h : Moves s i t) (hi : isLifecycle i = false ∨ i = .destroy) :
    t.failCode = s.failCode := by
  cases h with
  | identFails | failClosed => simp [isLifecycle] at hi
  | destroyed hc | released _ hc => exact hc.failCode
  | _ => rfl

/-- R29: a request of another family than INIT and DESTROY writes no register of the handle, but RDID writes `ID`. -/
theorem Moves.handle_eq {s t : State} {i : Instr} (h : Moves s i t) (hi : isLifecycle i = false) :
    t.handle = { s.handle with id := t.id } ∧ (i ≠ .rdid → t.id = s.id) := by
  cases h with
  | ends _ _ _ _ _ he => exact ⟨rfl, he.id_eq⟩
  | stopped | noStatus | capacity | waits => exact ⟨rfl, fun _ => rfl⟩
  | closeWaits hc => simp [hc.lifecycle] at hi
  | destroyed | released | openWaits | openFails | opened | identWaits | identFails | failClosed | identified => cases hi

/-- Settles O38: the frame of a request, register by register. -/
theorem accessRights : Obligations.AccessRights := by
  intro s t i h
  have hm := exec_moves h
  obtain ⟨hpar, hrst, hhost⟩ := hm.frame
  refine ⟨hpar, hrst, hhost, hm.free_eq, hm.failCode_eq, fun hi => ?_⟩
  obtain ⟨hh, hid⟩ := hm.handle_eq hi
  exact ⟨congrArg Handle.life hh, congrArg Handle.afw hh, congrArg Handle.hnd hh, congrArg Handle.cfg hh, hid⟩

/-! ### The call a step answers or leaves waiting -/

/-- R25: a call that passes a token passes the one held in `s`. -/
def Call.heldIn (c : Call) (s : State) : Prop := ∀ h, c.token = some h → s.hnd = some h

theorem Call.heldIn_of_token {c : Call} {s : State} {h : Token} (hc : c.token = some h) (hh : s.hnd = some h) :
    c.heldIn s := fun _ hc' => by rw [hh, ← hc, hc']

theorem Call.heldIn_openBus (cfg : BusCfg) (s : State) : (Call.openBus cfg).heldIn s := fun _ h => nomatch h

/-- R71: a step answers at most one call, and that one passes the token held before it. -/
def AnswersAtMostOne (s t : State) : Prop :=
  t.trace = s.trace ∨ ∃ c r, t.trace = s.trace ++ [⟨c, r⟩] ∧ c.heldIn s

theorem Closed.answersAtMostOne {s s' : State} (h : Closed s s') : AnswersAtMostOne s s' := by
  cases h with
  | absent => exact .inl rfl
  | closed hh => exact .inr ⟨_, _, rfl, Call.heldIn_of_token rfl hh⟩

theorem Moves.answersAtMostOne {s t : State} {i : Instr} (h : Moves s i t) : AnswersAtMostOne s t := by
  cases h with
  | stopped | noStatus | capacity | waits | closeWaits | openWaits | identWaits => exact .inl rfl
  | ends _ hh hc => exact .inr ⟨_, _, rfl, Call.heldIn_of_token (readyCall_token hc) hh⟩
  | destroyed hc | released _ hc => exact hc.answersAtMostOne
  | openFails | opened => exact .inr ⟨_, _, rfl, Call.heldIn_openBus _ s⟩
  | identFails _ hh | failClosed _ hh | identified _ hh => exact .inr ⟨_, _, rfl, Call.heldIn_of_token rfl hh⟩

theorem Closed.call_eq {s s' : State} (h : Closed s s') (hs : s.call = none) : s'.call = none := by
  cases h with
  | absent => exact hs
  | closed => rfl

/-- R25: a call that begins to wait passes the token held. -/
theorem Moves.waiting_heldIn {s t : State} {i : Instr} {c : Call} (h : Moves s i t) (hs : s.call = none)
    (ht : t.call = some c) : c.heldIn s := by
  cases h with
  | waits _ hh hc =>
    cases ht
    exact Call.heldIn_of_token (readyCall_token hc) hh
  | closeWaits _ hh | identWaits _ hh =>
    cases ht
    exact Call.heldIn_of_token rfl hh
  | openWaits =>
    cases ht
    exact Call.heldIn_openBus _ s
  | released _ hc => cases (hc.call_eq hs).symm.trans ht
  | stopped | noStatus | capacity | ends | destroyed | openFails | opened | identFails | failClosed | identified => cases ht

/-- Settles O41: by the call answered and the call left waiting. -/
theorem callsPassTheHeldToken : Obligations.CallsPassTheHeldToken := by
  intro s t i h
  refine ⟨fun e he => ?_, fun c tok hs hc => (exec_moves h).waiting_heldIn hs hc tok⟩
  rcases (exec_moves h).answersAtMostOne with ht | ⟨c, r, ht, hc⟩
  · simp [ht] at he
  · obtain rfl : e = ⟨c, r⟩ := by simpa [ht] using he
    exact hc

/-- Settles O42: a step that is not a request's answers no call. -/
theorem callsAreTotallyOrdered : Obligations.CallsAreTotallyOrdered := by
  intro s t h
  have of_moves : ∀ {u : State} {i : Instr}, u.trace = s.trace → exec i u = .next t →
      ∃ new, t.trace = s.trace ++ new ∧ new.length ≤ 1 := by
    intro u i hu hx
    rcases (exec_moves hx).answersAtMostOne with ht | ⟨c, r, ht, -⟩
    · exact ⟨[], by simp [ht, hu], Nat.zero_le 1⟩
    · exact ⟨[⟨c, r⟩], by simp [ht, hu], Nat.le_refl 1⟩
  rcases step_cases h with ⟨-, h⟩ | ⟨-, -, -, h⟩ | ⟨-, -, q, rest, -, -, h⟩ | ⟨-, i, k, -, h⟩ | ⟨-, -, q, rest, i, -, -, h⟩
  · cases h; exact ⟨[], by simp, Nat.zero_le 1⟩
  · cases h; exact ⟨[], by simp, Nat.zero_le 1⟩
  · cases h; exact ⟨[], by simp [illegalRequest], Nat.zero_le 1⟩
  · exact of_moves (u := s) rfl h
  · exact of_moves (u := { s with host := rest }) rfl h

/-! ### Whose step it is -/

theorem step_of_rst {s : State} (h : s.rst = true) : step s = .next s.resetNow := by
  simp [step, h]

theorem step_of_busy {s : State} {i : Instr} {k : Nat} (hr : s.rst = false) (hs : s.seq = .busy i k) :
    step s = exec i s := by
  simp [step, hr, hs]

theorem step_of_accept {s : State} {q : HostReq} {rest : List HostReq} {i : Instr} (hr : s.rst = false)
    (hs : s.seq = .idle) (hh : s.host = q :: rest) (hd : decode q = .ok i) : step s = exec i { s with host := rest } := by
  simp [step, stepIdle, State.accept, hr, hs, hh, hd]

theorem decode_of_decodeTableWord {nbits w : Nat} {i : Instr} (h : decodeTableWord nbits w = some i) :
    decode (HostReq.ofTableWord nbits w) = .ok i := by
  unfold decodeTableWord at h
  split at h
  next hd => rw [hd, Option.some.inj h]
  next => cases h

/-- Settles O11: the second clause is the first at the state `withFetchWord` makes. -/
theorem stepRunsTheDecodedRequest : Obligations.StepRunsTheDecodedRequest :=
  ⟨fun _ _ _ _ hr hs hh hd => step_of_accept hr hs hh hd,
    fun _ _ _ _ hi => step_of_accept rfl rfl rfl (decode_of_decodeTableWord hi)⟩

/-- Settles O12: the host port is in the frame of the running request. -/
theorem busySequencerHoldsTheHost : Obligations.BusySequencerHoldsTheHost := by
  intro s i k hr hs
  have hstep := step_of_busy hr hs
  refine ⟨hstep, fun t ht => ?_⟩
  obtain ⟨-, -, hhost⟩ := (exec_moves (hstep.symm.trans ht)).frame
  exact hhost

/-- Settles O15: a reset step is `resetNow`, which leaves the environment where no call is in flight. -/
theorem resetClearsTheRegisters : Obligations.ResetClearsTheRegisters := by
  refine ⟨fun s hr => ⟨s.resetNow, step_of_rst hr, rfl, rfl, rfl, rfl, rfl, rfl, rfl, rfl, rfl, rfl, rfl, rfl, rfl, rfl,
    fun hc => ?_⟩, rfl, rfl, rfl, rfl, rfl, rfl, rfl, rfl⟩
  simp [hc, Env.afterReset]

end Sys2Proof.Machine
end

section
/-! O46, O47 and O50 (10_state.md R21, R22, R25 to R28, R37): the invariant of every run. First what `seqOk` says at each position
of the sequencer, then one lemma for each field of the invariant after a request's step. -/

namespace Sys2Proof.Machine

/-! ### What the invariant says at each position -/

theorem seqOk_of_idle {s : State} (hs : s.seq = .idle) :
    s.seqOk ↔ s.call = none ∧ s.rx = none ∧ (s.handle = Handle.empty ∨ s.usable) := by
  simp only [State.seqOk, hs]

theorem seqOk_of_first {s : State} {i : Instr} (hs : s.seq = .busy i 0) :
    s.seqOk ↔ s.rx = none ∧ s.usable ∧ ∃ h, s.hnd = some h ∧ s.call.isSome ∧ s.call = firstCall s.par h s.afw i := by
  cases i <;> simp [State.seqOk, hs]

theorem seqOk_of_opening {s : State} {bus cs : U32} {g : I32} {clk : U32} (hs : s.seq = .busy (.init bus cs g clk) 1) :
    s.seqOk ↔ s.rx = none ∧ s.handle = { Handle.empty with cfg := resolveCfg s.par bus cs g clk } ∧
      (s.call = none ∨ s.call = some (.openBus s.cfg)) := by
  simp only [State.seqOk, hs]

theorem seqOk_of_identifying {s : State} {bus cs : U32} {g : I32} {clk : U32}
    (hs : s.seq = .busy (.init bus cs g clk) 2) :
    s.seqOk ↔ s.rx = none ∧
      ∃ h, s.handle = { Handle.empty with hnd := some h, cfg := resolveCfg s.par bus cs g clk } ∧
        (s.call = none ∨ s.call = some (.xferFull h (idFrame s.par))) := by
  simp only [State.seqOk, hs]

theorem seqOk_of_closing {s : State} {bus cs : U32} {g : I32} {clk : U32} (hs : s.seq = .busy (.init bus cs g clk) 3) :
    s.seqOk ↔ s.rx = none ∧
      ∃ h, s.handle = { Handle.empty with hnd := some h, cfg := resolveCfg s.par bus cs g clk } ∧
        (s.call = none ∨ s.call = some (.close h)) := by
  simp only [State.seqOk, hs]

/-- R27: a busy request of the invariant stands at its step 0, or it is INIT at one of its steps 1, 2 and 3. -/
theorem seqOk_busy_cases {s : State} {i : Instr} {k : Nat} (h : s.seqOk) (hs : s.seq = .busy i k) :
    k = 0 ∨ (k = 1 ∨ k = 2 ∨ k = 3) ∧ ∃ bus cs g clk, i = .init bus cs g clk := by
  unfold State.seqOk at h
  split at h
  next hs' => cases hs.symm.trans hs'
  next hs' => cases hs.symm.trans hs'; exact .inr ⟨.inl rfl, _, _, _, _, rfl⟩
  next hs' => cases hs.symm.trans hs'; exact .inr ⟨.inr (.inl rfl), _, _, _, _, rfl⟩
  next hs' => cases hs.symm.trans hs'; exact .inr ⟨.inr (.inr rfl), _, _, _, _, rfl⟩
  next hs' => cases hs.symm.trans hs'; exact .inl h.1

/-- The invariant's positions: IDLE, step 0 of a request, and INIT's three further steps. -/
theorem seqOk_position_cases {s : State} (h : s.seqOk) :
    s.seq = .idle ∨ (∃ i, s.seq = .busy i 0) ∨
      ∃ bus cs g clk k, (k = 1 ∨ k = 2 ∨ k = 3) ∧ s.seq = .busy (.init bus cs g clk) k := by
  cases hs : s.seq with
  | idle => exact .inl rfl
  | busy i k =>
    rcases seqOk_busy_cases h hs with rfl | ⟨hk, bus, cs, g, clk, rfl⟩
    · exact .inr (.inl ⟨i, rfl⟩)
    · exact .inr (.inr ⟨bus, cs, g, clk, k, hk, rfl⟩)

/-- R28: between steps there is no reply buffer. -/
theorem seqOk_rx {s : State} (h : s.seqOk) : s.rx = none := by
  rcases seqOk_position_cases h with hs | ⟨i, hs⟩ | ⟨bus, cs, g, clk, k, rfl | rfl | rfl, hs⟩
  · obtain ⟨-, hrx, -⟩ := (seqOk_of_idle hs).mp h; exact hrx
  · obtain ⟨hrx, -⟩ := (seqOk_of_first hs).mp h; exact hrx
  · obtain ⟨hrx, -⟩ := (seqOk_of_opening hs).mp h; exact hrx
  · obtain ⟨hrx, -⟩ := (seqOk_of_identifying hs).mp h; exact hrx
  · obtain ⟨hrx, -⟩ := (seqOk_of_closing hs).mp h; exact hrx

/-- R21, R22: where a request begins or stands at its step 0, the handle is in its reset value or usable. -/
theorem seqOk_handle {s : State} (h : s.seqOk) (hp : s.seq.position = 0) : s.handle = Handle.empty ∨ s.usable := by
  rcases seqOk_position_cases h with hs | ⟨i, hs⟩ | ⟨bus, cs, g, clk, k, hk, hs⟩
  · obtain ⟨-, -, hh⟩ := (seqOk_of_idle hs).mp h; exact hh
  · obtain ⟨-, hu, -⟩ := (seqOk_of_first hs).mp h; exact .inr hu
  · simp only [hs, Seq.position] at hp; omega

theorem usable_of_ready {s : State} (h : s.seqOk) (hp : s.seq.position = 0) (hl : s.life = .ready) : s.usable :=
  (seqOk_handle h hp).resolve_left fun he => by cases hl.symm.trans (congrArg Handle.life he)

theorem usable_of_held {s : State} {t : Token} (h : s.seqOk) (hp : s.seq.position = 0) (hh : s.hnd = some t) : s.usable :=
  (seqOk_handle h hp).resolve_left fun he => by cases hh.symm.trans (congrArg Handle.hnd he)

/-- With no token held a request begins with no call on the port. -/
theorem call_of_unheld {s : State} (h : s.seqOk) (hp : s.seq.position = 0) (hh : s.hnd = none) : s.call = none := by
  rcases seqOk_position_cases h with hs | ⟨i, hs⟩ | ⟨bus, cs, g, clk, k, hk, hs⟩
  · obtain ⟨hc, -⟩ := (seqOk_of_idle hs).mp h; exact hc
  · obtain ⟨-, -, t, ht, -⟩ := (seqOk_of_first hs).mp h; cases hh.symm.trans ht
  · simp only [hs, Seq.position] at hp; omega

theorem firstCall_of_readyCall {p : Config} {h : Token} {w : Afw} {i : Instr} {c : Call}
    (hc : readyCall p h w i = some c) : firstCall p h w i = some c := by
  cases i with
  | init | destroy => cases hc
  | rdid | getcap | rdsr | wrsr | wren | wrdi | write | read => exact hc

/-- Only INIT and DESTROY begin with a `Close`, of the token held. -/
theorem firstCall_close {p : Config} {h h' : Token} {w : Afw} {i : Instr} (hc : firstCall p h w i = some (.close h')) :
    h' = h ∧ isLifecycle i = true := by
  cases i with
  | init | destroy => cases hc; exact ⟨rfl, rfl⟩
  | rdid | getcap | rdsr | wrsr | wren | wrdi | write | read => cases hc

/-- A `Close` on the port is of the token held, at step 0 of INIT or DESTROY or at step 3 of INIT. -/
theorem close_on_port {s : State} {h : Token} (hq : s.seqOk) (hc : s.call = some (.close h)) :
    s.hnd = some h ∧ ∃ i k, s.seq = .busy i k ∧ isLifecycle i = true ∧ (k = 0 ∨ k = 3) := by
  rcases seqOk_position_cases hq with hs | ⟨i, hs⟩ | ⟨bus, cs, g, clk, k, rfl | rfl | rfl, hs⟩
  · obtain ⟨hn, -⟩ := (seqOk_of_idle hs).mp hq
    cases hn.symm.trans hc
  · obtain ⟨-, -, t, ht, -, hf⟩ := (seqOk_of_first hs).mp hq
    obtain ⟨rfl, hi⟩ := firstCall_close (hf.symm.trans hc)
    exact ⟨ht, i, 0, hs, hi, .inl rfl⟩
  · obtain ⟨-, -, hn | hn⟩ := (seqOk_of_opening hs).mp hq <;> cases hn.symm.trans hc
  · obtain ⟨-, t, -, hn | hn⟩ := (seqOk_of_identifying hs).mp hq <;> cases hn.symm.trans hc
  · obtain ⟨-, t, ht, hn | hn⟩ := (seqOk_of_closing hs).mp hq <;> cases hn.symm.trans hc
    exact ⟨congrArg Handle.hnd ht, _, 3, hs, rfl, .inr rfl⟩

/-! ### The request whose step comes next -/

/-- The sequencer lets a step of request `i` come next: it is idle, or busy with `i`. -/
def Seq.admits (q : Seq) (i : Instr) : Prop := q = .idle ∨ ∃ k, q = .busy i k

/-- A step past the first is the running request's. -/
theorem Seq.admits.busy {q : Seq} {i : Instr} {k : Nat} (h : q.admits i) (hp : q.position = k) (hk : 0 < k) :
    q = .busy i k := by
  rcases h with rfl | ⟨k', rfl⟩
  · simp [Seq.position] at hp; omega
  · exact congrArg _ hp

/-- A request other than INIT takes one machine step (R27). -/
theorem Seq.admits.position_eq_zero {s : State} {i : Instr} (h : s.seq.admits i) (hq : s.seqOk)
    (hi : ∀ bus cs g clk, i ≠ .init bus cs g clk) : s.seq.position = 0 := by
  rcases h with hs | ⟨k, hs⟩
  · simp [hs, Seq.position]
  · rcases seqOk_busy_cases hq hs with rfl | ⟨-, bus, cs, g, clk, rfl⟩
    · simp [hs, Seq.position]
    · exact absurd rfl (hi bus cs g clk)

theorem ne_init_of_not_lifecycle {i : Instr} (h : isLifecycle i = false) : ∀ bus cs g clk, i ≠ .init bus cs g clk := by
  rintro _ _ _ _ rfl
  cases h

/-- The last step of a busy INIT is the one numbered 3. -/
theorem Seq.admits.closing {s : State} {i : Instr} (h : s.seq.admits i) (hq : s.seqOk) (hp : 3 ≤ s.seq.position) :
    s.seq = .busy i 3 := by
  have hs := h.busy rfl (by omega)
  rcases seqOk_busy_cases hq hs with h0 | ⟨h0 | h0 | h0, -⟩
  · omega
  · omega
  · omega
  · rwa [h0] at hs

end Sys2Proof.Machine
end

section
/-! O46, O47 and O50: one lemma for each field of the invariant after a request's step, and the invariant of the whole machine. -/

namespace Sys2Proof.Machine

/-! ### Each field after a request's step -/

/-- The environment after a step is what the step's one call, if it makes one, left of it. -/
theorem Moves.env_cases {s t : State} {i : Instr} (h : Moves s i t) :
    t.env = s.env ∨ (∃ tx, t.env = (s.env.exchange s.par tx).2) ∨ t.env = s.env.openBus.2 ∨ t.env = s.env.close.2 := by
  cases h with
  | stopped | noStatus | capacity => exact .inl rfl
  | waits | ends | identWaits | identFails | identified => exact .inr (.inl ⟨_, rfl⟩)
  | openWaits | openFails | opened => exact .inr (.inr (.inl rfl))
  | closeWaits | failClosed => exact .inr (.inr (.inr rfl))
  | destroyed hc | released _ hc =>
    cases hc with
    | absent => exact .inl rfl
    | closed => exact .inr (.inr (.inr rfl))

/-- The device's array stays in canonical form (R62). -/
theorem Moves.memOk {s t : State} {i : Instr} (h : Moves s i t) (hs : s.env.chip.memOk) : t.env.chip.memOk := by
  rcases h.env_cases with he | ⟨tx, he⟩ | he | he <;> rw [he]
  · exact hs
  · exact Env.exchange_memOk _ _ hs
  · rwa [Env.openBus_chip]
  · rwa [Env.close_chip]

/-- R26: `CFG`'s fixed fields keep their values. -/
theorem Moves.cfg_fixedFields {s t : State} {i : Instr} (h : Moves s i t) (hs : s.cfg.fixedFields) :
    t.cfg.fixedFields := by
  cases h with
  | destroyed | openFails | failClosed => exact ⟨rfl, rfl, rfl⟩
  | released => exact resolveCfg_fixedFields _ _ _ _ _
  | stopped | noStatus | capacity | waits | ends | closeWaits | openWaits | opened | identWaits | identFails | identified =>
    exact hs

/-- A failure code is held at INIT's step 3 only. -/
theorem State.Inv.failCode_eq_zero {s : State} (h : s.Inv) (hp : s.seq.position ≠ 3) : s.failCode = 0 :=
  h.fail.resolve_right fun ⟨_, _, _, _, hs⟩ => hp (by rw [hs]; rfl)

theorem Moves.fail {s t : State} {i : Instr} (h : Moves s i t) (hs : s.Inv) (hi : s.seq.admits i) :
    t.failCode = 0 ∨ ∃ bus cs g clk, t.seq = .busy (.init bus cs g clk) 3 := by
  by_cases hl : isLifecycle i = false ∨ i = .destroy
  · refine .inl ((h.failCode_eq hl).trans (hs.failCode_eq_zero ?_))
    rw [hi.position_eq_zero hs.seq (by rintro _ _ _ _ rfl; simp [isLifecycle] at hl)]
    decide
  cases h with
  | stopped h => exact absurd (.inl h.not_lifecycle) hl
  | waits _ _ hc | ends _ _ hc => exact absurd (.inl (readyCall_not_lifecycle hc)) hl
  | noStatus | capacity | destroyed => simp [isLifecycle] at hl
  | closeWaits hc =>
    cases hc with
    | destroy => simp [isLifecycle] at hl
    | release hp => exact .inl (hs.failCode_eq_zero (by omega))
    | failed => exact .inr ⟨_, _, _, _, rfl⟩
  | released hp hc => exact .inl (hc.failCode.trans (hs.failCode_eq_zero (by omega)))
  | openWaits hp | openFails hp | opened hp | identWaits hp | identified hp =>
    exact .inl (hs.failCode_eq_zero (by omega))
  | identFails => exact .inr ⟨_, _, _, _, rfl⟩
  | failClosed => exact .inl rfl

/-- A drawn `Close` is waited for only while a `Close` is on the port. -/
theorem State.Inv.closeLeft_eq_none {s : State} (h : s.Inv) (hc : ∀ t, s.call ≠ some (.close t)) :
    s.env.closeLeft = none :=
  h.wait.resolve_right fun ⟨_, t, ht⟩ => hc t ht

theorem State.Inv.closeLeft_of_unheld {s : State} (h : s.Inv) (hh : s.hnd = none) : s.env.closeLeft = none :=
  h.closeLeft_eq_none fun t hc => by
    obtain ⟨ht, -⟩ := close_on_port h.seq hc
    cases hh.symm.trans ht

theorem State.Inv.closeLeft_of_not_lifecycle {s : State} {i : Instr} (h : s.Inv) (hi : s.seq.admits i)
    (hl : isLifecycle i = false) : s.env.closeLeft = none :=
  h.closeLeft_eq_none fun t hc => by
    obtain ⟨-, j, k, hs, hj, -⟩ := close_on_port h.seq hc
    rcases hi with hi | ⟨k', hi⟩ <;> cases hs.symm.trans hi
    cases hl.symm.trans hj

theorem State.Inv.closeLeft_of_position {s : State} (h : s.Inv) (hp : s.seq.position = 1 ∨ s.seq.position = 2) :
    s.env.closeLeft = none :=
  h.closeLeft_eq_none fun t hc => by
    obtain ⟨-, j, k, hs, -, hk⟩ := close_on_port h.seq hc
    simp only [hs, Seq.position] at hp
    omega

/-- A `Close` that is done is waited for no more. -/
theorem State.Inv.closeLeft_of_done {s : State} (h : s.Inv) (hd : s.env.close.1 = .done) :
    s.env.close.2.closeLeft = none :=
  (Env.close_closeLeft (h.wait.imp_right And.left)).resolve_right fun ⟨hw, _⟩ => by cases hd.symm.trans hw

theorem Closed.closeLeft {s s' : State} (h : Closed s s') (hs : s.Inv) : s'.env.closeLeft = none := by
  cases h with
  | absent hh => exact hs.closeLeft_of_unheld hh
  | closed _ hd => exact hs.closeLeft_of_done hd

theorem Moves.wait {s t : State} {i : Instr} (h : Moves s i t) (hs : s.Inv) (hi : s.seq.admits i) :
    t.env.closeLeft = none ∨ t.env.link = .draws ∧ ∃ h, t.call = some (.close h) := by
  cases h with
  | stopped h => exact .inl (hs.closeLeft_of_not_lifecycle hi h.not_lifecycle)
  | noStatus | capacity => exact .inl (hs.closeLeft_of_not_lifecycle hi rfl)
  | waits _ _ hc | ends _ _ hc =>
    exact .inl ((Env.exchange_closeLeft _ _ _).trans (hs.closeLeft_of_not_lifecycle hi (readyCall_not_lifecycle hc)))
  | closeWaits =>
    exact (Env.close_closeLeft (hs.wait.imp_right And.left)).imp_right fun ⟨_, hd⟩ => ⟨hd, _, rfl⟩
  | destroyed hc | released _ hc => exact .inl (hc.closeLeft hs)
  | openWaits hp | openFails hp | opened hp =>
    exact .inl ((Env.openBus_closeLeft _).trans (hs.closeLeft_of_position (.inl hp)))
  | identWaits hp | identFails hp | identified hp =>
    exact .inl ((Env.exchange_closeLeft _ _ _).trans (hs.closeLeft_of_position (.inr hp)))
  | failClosed _ _ hd => exact .inl (hs.closeLeft_of_done hd)

theorem Closed.rx {s s' : State} (h : Closed s s') : s'.rx = s.rx := by cases h <;> rfl

/-- A request begins with no call on the port where no token is held, and a `Close` that is done leaves none. -/
theorem Closed.call_eq_none {s s' : State} (h : Closed s s') (hq : s.seqOk) (hp : s.seq.position = 0) :
    s'.call = none := by
  cases h with
  | absent hh => exact call_of_unheld hq hp hh
  | closed => rfl

/-- R27, R28, R37: after a request's step the sequencer stands at a position of the invariant. -/
theorem Moves.seqOk {s t : State} {i : Instr} (h : Moves s i t) (hq : s.seqOk) (hi : s.seq.admits i) : t.seqOk := by
  have start := fun hl : isLifecycle i = false => hi.position_eq_zero hq (ne_init_of_not_lifecycle hl)
  have hrx := seqOk_rx hq
  cases h with
  | stopped h =>
    have hh := seqOk_handle hq (start h.not_lifecycle)
    exact (seqOk_of_idle rfl).mpr ⟨rfl, rfl, hh⟩
  | noStatus | capacity =>
    have hh := seqOk_handle hq (start rfl)
    exact (seqOk_of_idle rfl).mpr ⟨rfl, rfl, hh⟩
  | waits hl hh hc =>
    have hu := usable_of_ready hq (start (readyCall_not_lifecycle hc)) hl
    exact (seqOk_of_first rfl).mpr ⟨hrx, hu, _, hh, rfl, (firstCall_of_readyCall hc).symm⟩
  | ends hl _ hc =>
    have hu := usable_of_ready hq (start (readyCall_not_lifecycle hc)) hl
    exact (seqOk_of_idle rfl).mpr ⟨rfl, rfl, .inr hu⟩
  | closeWaits hc hh =>
    cases hc with
    | destroy =>
      have hu := usable_of_held hq (hi.position_eq_zero hq (by simp)) hh
      exact (seqOk_of_first rfl).mpr ⟨hrx, hu, _, hh, rfl, rfl⟩
    | release hp =>
      have hu := usable_of_held hq hp hh
      exact (seqOk_of_first rfl).mpr ⟨hrx, hu, _, hh, rfl, rfl⟩
    | failed hp =>
      obtain ⟨-, t, ht, -⟩ := (seqOk_of_closing (hi.closing hq hp)).mp hq
      cases hh.symm.trans (congrArg Handle.hnd ht)
      exact (seqOk_of_closing rfl).mpr ⟨hrx, _, ht, .inr rfl⟩
  | destroyed | openFails | failClosed => exact (seqOk_of_idle rfl).mpr ⟨rfl, rfl, .inl rfl⟩
  | released hp hc => exact (seqOk_of_opening rfl).mpr ⟨hc.rx.trans hrx, rfl, .inl (hc.call_eq_none hq hp)⟩
  | openWaits hp =>
    obtain ⟨-, hh, -⟩ := (seqOk_of_opening (hi.busy hp (by decide))).mp hq
    exact (seqOk_of_opening rfl).mpr ⟨hrx, hh, .inr rfl⟩
  | @opened bus cs g clk h hp =>
    obtain ⟨-, hh, -⟩ := (seqOk_of_opening (hi.busy hp (by decide))).mp hq
    have hh' := congrArg (fun x : Handle => { x with hnd := some h }) hh
    exact (seqOk_of_identifying rfl).mpr ⟨hrx, h, hh', .inl rfl⟩
  | identWaits hp hh =>
    obtain ⟨-, t, ht, -⟩ := (seqOk_of_identifying (hi.busy hp (by decide))).mp hq
    cases hh.symm.trans (congrArg Handle.hnd ht)
    exact (seqOk_of_identifying rfl).mpr ⟨hrx, _, ht, .inr rfl⟩
  | identFails hp =>
    obtain ⟨-, t, ht, -⟩ := (seqOk_of_identifying (hi.busy hp (by decide))).mp hq
    exact (seqOk_of_closing rfl).mpr ⟨hrx, t, ht, .inl rfl⟩
  | identified _ hh =>
    exact (seqOk_of_idle rfl).mpr ⟨rfl, rfl, .inr ⟨rfl, Option.isSome_of_eq_some hh, widthOf_ne_unset _⟩⟩

/-- Every request's step keeps the invariant. -/
theorem Moves.inv {s t : State} {i : Instr} (h : Moves s i t) (hs : s.Inv) (hi : s.seq.admits i) : t.Inv where
  par := by
    obtain ⟨hpar, -, -⟩ := h.frame
    rw [hpar]
    exact hs.par
  cfg := h.cfg_fixedFields hs.cfg
  seq := h.seqOk hs.seq hi
  chip := h.memOk hs.chip
  fail := h.fail hs hi
  wait := h.wait hs hi

/-! ### The machine -/

theorem Env.afterReset_chip (b : Bool) (e : Env) : (e.afterReset b).chip = e.chip := by
  cases b <;> rfl

/-- A reset with a call in flight ends the wait for it (R232). -/
theorem State.Inv.closeLeft_afterReset {s : State} (h : s.Inv) :
    (s.env.afterReset s.call.isSome).closeLeft = none := by
  cases hc : s.call with
  | none => exact h.closeLeft_eq_none (by simp [hc])
  | some c => rfl

theorem State.Inv.resetNow {s : State} (h : s.Inv) : s.resetNow.Inv where
  par := h.par
  cfg := ⟨rfl, rfl, rfl⟩
  seq := (seqOk_of_idle rfl).mpr ⟨rfl, rfl, .inl rfl⟩
  chip := by rw [resetNow_env, Env.afterReset_chip]; exact h.chip
  fail := .inl rfl
  wait := .inl h.closeLeft_afterReset

/-- The invariant does not speak of the requests presented. -/
theorem State.Inv.withHost {s : State} (h : s.Inv) (rest : List HostReq) : State.Inv { s with host := rest } :=
  ⟨h.par, h.cfg, h.seq, h.chip, h.fail, h.wait⟩

/-- Answering an error at IDLE keeps the invariant. -/
theorem State.Inv.raise {s : State} (h : s.Inv) (hs : s.seq = .idle) (e : Err) (x : I32) :
    (Machine.raise e x s).Inv where
  par := h.par
  cfg := h.cfg
  seq := by
    obtain ⟨-, -, hh⟩ := (seqOk_of_idle hs).mp h.seq
    exact (seqOk_of_idle rfl).mpr ⟨rfl, rfl, hh⟩
  chip := h.chip
  fail := .inl (h.failCode_eq_zero (by simp [hs, Seq.position]))
  wait := .inl (h.closeLeft_eq_none fun t hc => by
    obtain ⟨-, i, k, hb, -⟩ := close_on_port h.seq hc
    cases hs.symm.trans hb)

/-- Settles O47: by what the step is, and for a request's step field by field. -/
theorem stepKeepsTheInvariant : Obligations.StepKeepsTheInvariant := by
  intro s t hs h
  rcases step_cases h with ⟨-, h⟩ | ⟨-, -, -, h⟩ | ⟨-, hi, q, rest, -, -, h⟩ | ⟨-, i, k, hb, h⟩ |
    ⟨-, hi, q, rest, i, -, -, h⟩
  · cases h; exact hs.resetNow
  · cases h; exact hs
  · cases h; exact (hs.withHost rest).raise hi _ _
  · exact (exec_moves h).inv hs (.inr ⟨k, hb⟩)
  · exact (exec_moves h).inv (hs.withHost rest) (.inl hi)

/-- Settles O46: at reset nothing is on the port, held or traced, and the default op-codes differ. -/
theorem invariantAtReset : Obligations.InvariantAtReset where
  left :=
    { par := by decide
      cfg := ⟨rfl, rfl, rfl⟩
      seq := (seqOk_of_idle rfl).mpr ⟨rfl, rfl, .inl rfl⟩
      chip := ⟨rfl, fun _ hx => nomatch hx⟩
      fail := .inl rfl
      wait := .inl rfl }
  right := fun _ he => nomatch he

/-- Settles O50: of the two handles at IDLE only the usable one is READY, and only it has a token. -/
theorem idleReadyMeansHandleAndWidth : Obligations.IdleReadyMeansHandleAndWidth := by
  intro s hs hi
  have hp : s.seq.position = 0 := by rw [hi]; rfl
  constructor
  · intro hl
    obtain ⟨-, hh, ha⟩ := usable_of_ready hs.seq hp hl
    refine ⟨Option.isSome_iff_ne_none.mp hh, ?_⟩
    cases hw : s.afw <;> simp_all
  · rintro ⟨hh, -⟩
    obtain ⟨h, hh⟩ := Option.ne_none_iff_exists'.mp hh
    obtain ⟨hl, -, -⟩ := usable_of_held hs.seq hp hh
    exact hl

end Sys2Proof.Machine
end

section
/-! O17, O19, O21, O31 and O49 (40_lifecycle.md R110 to R115, 93_implementation_defined.md I20): INIT's and DESTROY's calls of
`Close`, INIT's identifier read, and where a call has no meaning. -/

namespace Sys2Proof.Machine

/-! ### The step of a lifecycle request at each position -/

section Lifecycle
variable {bus cs : U32} {g : I32} {clk : U32} {s : State}

theorem exec_init_of_zero (hp : s.seq.position = 0) :
    exec (.init bus cs g clk) s = closeIfHeld (.init bus cs g clk) 0 s fun s =>
      .next (initRelease (.init bus cs g clk) (resolveCfg s.par bus cs g clk) s) := by
  simp only [exec, execInit, hp]

theorem exec_init_of_one (hp : s.seq.position = 1) :
    exec (.init bus cs g clk) s = initOpen (.init bus cs g clk) s := by
  simp only [exec, execInit, hp]

theorem exec_init_of_two (hp : s.seq.position = 2) :
    exec (.init bus cs g clk) s = initIdentify (.init bus cs g clk) s := by
  simp only [exec, execInit, hp]

theorem exec_init_of_three_le (hp : 3 ≤ s.seq.position) :
    exec (.init bus cs g clk) s = initClose (.init bus cs g clk) s := by
  obtain ⟨n, hn⟩ := Nat.exists_eq_add_of_le' hp
  simp only [exec, execInit, hn]

theorem exec_destroy (s : State) :
    exec .destroy s = closeIfHeld .destroy 0 s fun s => .next (respond {} (unbind s)) := rfl

theorem Seq.position_of_busy {i : Instr} {k : Nat} (hs : s.seq = .busy i k) : s.seq.position = k := by
  rw [hs]; rfl

end Lifecycle

/-- Settles O17: by the token held, and by what the transport has for its `Close`. -/
theorem initReleasesTheHandle : Obligations.InitReleasesTheHandle := by
  intro bus cs g clk s hs cfg
  have hp : s.seq.position = 0 := by rcases hs with hs | hs <;> rw [hs] <;> rfl
  rw [exec_init_of_zero hp]
  refine ⟨fun hh => ?_, fun h e hh ha => ?_, fun h e hh ha => ?_, fun h e hh ha => ?_⟩
  · rw [closeIfHeld_none hh]; rfl
  · rw [closeIfHeld_some hh, callClose_done hh ha]; rfl
  · rw [closeIfHeld_some hh, callClose_waits hh ha]; rfl
  · rw [closeIfHeld_some hh, callClose_never hh ha]

/-- Settles O19: by the transport's answer at each of the two steps. -/
theorem initReadsTheIdentifier : Obligations.InitReadsTheIdentifier := by
  intro bus cs g clk s h e hh
  refine ⟨fun hs => ?_, fun hs => ?_⟩
  · rw [exec_init_of_two (Seq.position_of_busy hs)]
    refine ⟨fun c rx ha hl => ?_, fun c ha => ?_, fun ha => ?_⟩
    · exact callXferFull_ok hh ha hl
    · exact callXferFull_err hh ha
    · exact callXferFull_silent hh ha
  · rw [exec_init_of_three_le (Seq.position_of_busy hs).ge]
    exact ⟨fun ha => callClose_done hh ha, fun ha => callClose_waits hh ha⟩

/-! ### How long a `Close` waits -/

/-- A bound on the steps for which a `Close` still waits: the delay drawn for it, or the answers or injections left. -/
def Env.closeBound (e : Env) : Nat :=
  match e.link with
  | .draws => e.closeLeft.getD (Config.drawDelay e.drawn)
  | .script answers => answers.length
  | .reference inject => inject.length

theorem Env.closeBound_of_draws {e : Env} (hl : e.link = .draws) :
    e.closeBound = e.closeLeft.getD (Config.drawDelay e.drawn) := by
  simp only [Env.closeBound, hl]

theorem Env.closeAfter_closeBound_lt {n : Nat} {e : Env} (hl : e.link = .draws) (hw : (Env.closeAfter n e).1 = .waits) :
    (Env.closeAfter n e).2.closeBound < n := by
  cases n with
  | zero => cases hw
  | succ m => simp [Env.closeAfter, Env.closeBound, hl]

/-- R33 (b): each step for which a `Close` waits brings its end nearer. -/
theorem Env.closeBound_lt {e : Env} (hw : e.close.1 = .waits) : e.close.2.closeBound < e.closeBound := by
  cases hl : e.link with
  | draws =>
    rw [Env.closeBound_of_draws hl]
    cases hc : e.closeLeft with
    | none =>
      simp only [Env.close, hl, hc] at hw ⊢
      exact Env.closeAfter_closeBound_lt rfl hw
    | some n =>
      simp only [Env.close, hl, hc] at hw ⊢
      exact Env.closeAfter_closeBound_lt hl hw
  | script answers =>
    rcases answers with _ | ⟨_ | _ | _, rest⟩ <;> simp [Env.close, Env.closeBound, hl] at hw ⊢
  | reference inject =>
    rcases inject with _ | ⟨_ | _ | _, rest⟩ <;> simp [Env.close, Env.closeBound, hl] at hw ⊢

theorem stepN_succ {n : Nat} {s t : State} (h : step s = .next t) : stepN (n + 1) s = stepN n t := by
  simp only [stepN, h]

/-- How DESTROY leaves the machine where it began at `s` with the token `h`. -/
def Destroyed (s : State) (h : Token) (t : State) : Prop :=
  t.seq = .idle ∧ t.handle = Handle.empty ∧ t.resps = s.resps ++ [{ err := .ok }] ∧
    t.trace = s.trace ++ [⟨.close h, .closed⟩] ∧ t.env.chip = s.env.chip

/-- A DESTROY that waits over a dutiful transport ends: by induction on the bound on its `Close`. -/
theorem destroy_ends {s : State} {h : Token} (hr : s.rst = false) (hs : s.seq = .busy .destroy 0) (hh : s.hnd = some h)
    (hd : s.env.link.dutiful) : ∃ n t, stepN n s = .next t ∧ Destroyed s h t := by
  induction hb : s.env.closeBound using Nat.strong_induction_on generalizing s with
  | _ b ih =>
    have hchip := s.env.close_chip
    have hstep : step s = callClose .destroy 0 s fun s => .next (respond {} (unbind s)) := by
      rw [step_of_busy hr hs, exec_destroy, closeIfHeld_some hh]
    cases ha : s.env.close.1 with
    | never => exact absurd ha (Env.close_ne_never hd)
    | done =>
      rw [callClose_done hh (Prod.ext ha rfl)] at hstep
      exact ⟨1, _, stepN_succ hstep, rfl, rfl, rfl, rfl, hchip⟩
    | waits =>
      rw [callClose_waits hh (Prod.ext ha rfl)] at hstep
      have hlt : s.env.close.2.closeBound < b := hb ▸ Env.closeBound_lt ha
      obtain ⟨n, t, hn, hseq, hhnd, hresps, htrace, hc⟩ :=
        ih _ hlt (s := await .destroy 0 (.close h) { s with env := s.env.close.2 }) hr rfl hh (Env.close_dutiful hd) rfl
      exact ⟨n + 1, t, (stepN_succ hstep).trans hn, hseq, hhnd, hresps, htrace, hc.trans hchip⟩

/-- Settles O21: by what the transport has for the `Close`, which over a dutiful transport is in the end done. -/
theorem destroyReleasesTheHandle : Obligations.DestroyReleasesTheHandle := by
  refine ⟨fun s => ?_, fun s h hr hs hh hd => destroy_ends hr hs hh hd⟩
  rw [exec_destroy]
  refine ⟨fun hh => ?_, fun h e hh ha => ?_, fun h e hh ha => ?_, fun h e hh ha => ?_⟩
  · rw [closeIfHeld_none hh]; rfl
  · rw [closeIfHeld_some hh, callClose_done hh ha]; rfl
  · rw [closeIfHeld_some hh, callClose_waits hh ha]; rfl
  · rw [closeIfHeld_some hh, callClose_never hh ha]

/-! ### Where a call has no meaning -/

section Stops
variable {i : Instr} {k : Nat} {tx : Bytes} {s : State}

/-- I20: a reply of another length than the frame. -/
theorem callXferFull_wrongLength {onErr onOk : I32 → State → Result} {h : Token} {e : Env} {c : I32} {rx : Bytes}
    (hh : s.hnd = some h) (ha : s.env.xferFull s.par tx = (.ok (c, rx), e)) (hl : rx.length ≠ tx.length) :
    callXferFull i k tx s onErr onOk = .refused .transportDuty := by
  simp [callXferFull, hh, ha, hl]

theorem callXferFull_unheld {onErr onOk : I32 → State → Result} (hh : s.hnd = none) :
    callXferFull i k tx s onErr onOk = .fault .noHandle := by
  simp [callXferFull, hh]

theorem callXfer_unheld {onErr onOk : I32 → State → Result} (hh : s.hnd = none) :
    callXfer i k tx s onErr onOk = .fault .noHandle := by
  simp [callXfer, hh]

theorem callClose_unheld {onDone : State → Result} (hh : s.hnd = none) :
    callClose i k s onDone = .fault .noHandle := by
  simp [callClose, hh]

theorem withWidth_unset {f : Nat → Result} (ha : s.afw = .unset) : withWidth s f = .fault .noWidth := by
  simp [withWidth, ha]

end Stops

/-- Settles O31: by the request whose full-duplex call it is. -/
theorem wrongReplyLengthIsRefused : Obligations.WrongReplyLengthIsRefused := by
  refine ⟨fun s i h tx c rx e hl hh hc hs ha hn => ?_, fun bus cs g clk s h c rx e hs hh ha hn => ?_,
    fun bus cs g clk s h e hs hh ha => ?_⟩
  · cases i with
    | init | destroy | getcap | wrsr | wren | wrdi | write => cases hc
    | rdid => cases hc; exact (execRdid_ready hl).trans (callXferFull_wrongLength hh ha hn)
    | rdsr => cases hc; exact (execRdsr_ready hl).trans (callXferFull_wrongLength hh ha hn)
    | read => cases hc; exact (execRead_sends hl hs).trans (callXferFull_wrongLength hh ha hn)
  · rw [exec_init_of_two (Seq.position_of_busy hs)]
    exact callXferFull_wrongLength hh ha hn
  · rw [exec_init_of_three_le (Seq.position_of_busy hs).ge]
    exact callClose_never hh ha

/-- Settles O49: by the request that would call the transport or build a frame. -/
theorem missingTokenOrWidthStopsByName : Obligations.MissingTokenOrWidthStopsByName := by
  refine ⟨fun s i h hl hh hc hs => ?_, fun s bus cs g clk hs hh => ?_, fun s bus cs g clk hs hh => ?_,
    fun s a d hl ha hd => ?_, fun s a n hl ha hn => ?_⟩
  · cases i with
    | init | destroy | getcap => cases hc
    | rdid => exact (execRdid_ready hl).trans (callXferFull_unheld hh)
    | rdsr => exact (execRdsr_ready hl).trans (callXferFull_unheld hh)
    | wrsr v => exact (execWrsr_ready hl v).trans (callXfer_unheld hh)
    | wren => exact (execWren_ready hl).trans (callXfer_unheld hh)
    | wrdi => exact (execWrdi_ready hl).trans (callXfer_unheld hh)
    | write => exact (execWrite_sends hl hs).trans (callXfer_unheld hh)
    | read => exact (execRead_sends hl hs).trans (callXferFull_unheld hh)
  · rw [exec_init_of_two (Seq.position_of_busy hs)]
    exact callXferFull_unheld hh
  · rw [exec_init_of_three_le (Seq.position_of_busy hs).ge]
    exact callClose_unheld hh
  · show execWrite a true d s = _
    rw [execWrite, needReady_ready hl, if_neg (by decide), if_neg hd, withWidth_unset ha]
  · show execRead a n s = _
    rw [execRead, needReady_ready hl, if_neg (by omega), withWidth_unset ha]

end Sys2Proof.Machine
end

section
/-! O48 (10_state.md R25, R33, 30_encoding.md R83): from a good state no step faults, and none is refused over a transport that
keeps its duties. `Result.goesOn` says so of a result; each shared operation keeps it of its continuations, so each request's proof
follows its text. -/

namespace Sys2Proof.Machine

/-- A result that is no fault, and a refusal only of an environment that may break its duties. -/
def Result.goesOn (e : Env) : Result → Prop
  | .next _ => True
  | .fault _ => False
  | .refused _ => ¬ e.link.dutiful

theorem Result.goesOn.ne_fault {e : Env} {r : Result} (h : Result.goesOn e r) (f : Fault) : r ≠ .fault f := by
  rintro rfl
  exact h

theorem Result.goesOn.exists_next {e : Env} {r : Result} (h : Result.goesOn e r) (hd : e.link.dutiful) :
    ∃ t, r = .next t := by
  cases r with
  | next t => exact ⟨t, rfl⟩
  | fault => exact h.elim
  | refused => exact (h hd).elim

/-! ### The shared operations -/

section Operations
variable {i : Instr} {n : Nat} {tx : Bytes} {s : State} {e : Env}

theorem goesOn_needReady {k : Result} (hk : s.life = .ready → Result.goesOn e k) : Result.goesOn e (needReady s k) := by
  cases hl : s.life with
  | unbound => rw [needReady_unbound hl]; trivial
  | ready => rw [needReady_ready hl]; exact hk hl

theorem goesOn_withWidth {k : Nat → Result} (ha : s.afw ≠ .unset) (hk : ∀ w, Result.goesOn e (k w)) :
    Result.goesOn e (withWidth s k) := by
  rw [withWidth_set ha]
  exact hk _

theorem goesOn_needRoom {k : Result} (hk : Result.goesOn e k) : Result.goesOn e (needRoom n s k) := by
  unfold needRoom
  split
  · exact hk
  · trivial

theorem goesOn_callOpen {onErr : I32 → State → Result} {onOk : Token → State → Result}
    (he : ∀ c s', Result.goesOn e (onErr c s')) (ho : ∀ t s', Result.goesOn e (onOk t s')) :
    Result.goesOn e (callOpen i n s onErr onOk) := by
  generalize hr : callOpen i n s onErr onOk = r
  rcases callOpen_cases hr with rfl | ⟨c, rfl⟩ | ⟨t, rfl⟩
  · trivial
  · exact he _ _
  · exact ho _ _

theorem goesOn_callXfer {onErr onOk : I32 → State → Result} (hh : s.hnd.isSome)
    (he : ∀ c s', Result.goesOn e (onErr c s')) (ho : ∀ c s', Result.goesOn e (onOk c s')) :
    Result.goesOn e (callXfer i n tx s onErr onOk) := by
  generalize hr : callXfer i n tx s onErr onOk = r
  rcases callXfer_cases hr with ⟨hn, -⟩ | ⟨h, -, rfl | ⟨c, rfl⟩ | ⟨c, rfl⟩⟩
  · simp [hn] at hh
  · trivial
  · exact he _ _
  · exact ho _ _

/-- A dutiful transport's reply is as long as the frame (R33 (a)). -/
theorem goesOn_callXferFull {onErr onOk : I32 → State → Result} (hh : s.hnd.isSome)
    (he : ∀ c s', Result.goesOn s.env (onErr c s')) (ho : ∀ c s', Result.goesOn s.env (onOk c s')) :
    Result.goesOn s.env (callXferFull i n tx s onErr onOk) := by
  generalize hr : callXferFull i n tx s onErr onOk = r
  rcases callXferFull_cases hr with ⟨hn, -⟩ | ⟨h, -, rfl | ⟨c, rfl⟩ | ⟨c, rx, -, -, rfl⟩ | ⟨c, rx, hl, ha, rfl⟩⟩
  · simp [hn] at hh
  · trivial
  · exact he _ _
  · exact ho _ _
  · exact fun hd => hl (Env.exchange_length hd ha)

/-- A dutiful transport completes every `Close` (R33 (b)). -/
theorem goesOn_callClose {onDone : State → Result} (hh : s.hnd.isSome) (hd : ∀ s', Result.goesOn s.env (onDone s')) :
    Result.goesOn s.env (callClose i n s onDone) := by
  generalize hr : callClose i n s onDone = r
  rcases callClose_cases hr with ⟨hn, -⟩ | ⟨h, -, ⟨-, rfl⟩ | ⟨-, rfl⟩ | ⟨ha, rfl⟩⟩
  · simp [hn] at hh
  · trivial
  · exact hd _
  · exact fun hl => Env.close_ne_never hl ha

theorem goesOn_closeIfHeld {onDone : State → Result} (hd : ∀ s', Result.goesOn s.env (onDone s')) :
    Result.goesOn s.env (closeIfHeld i n s onDone) := by
  cases hh : s.hnd with
  | none => rw [closeIfHeld_none hh]; exact hd s
  | some t => rw [closeIfHeld_some hh]; exact goesOn_callClose (by simp [hh]) hd

end Operations

/-! ### The requests -/

/-- A request of the invariant has what its calls need: a READY handle is usable, and INIT holds a token from its step 2 on. -/
theorem exec_goesOn {i : Instr} {s : State} (hu : isLifecycle i = false → s.life = .ready → s.usable)
    (hp : 2 ≤ s.seq.position → s.hnd.isSome) : Result.goesOn s.env (exec i s) := by
  have held : isLifecycle i = false → s.life = .ready → s.hnd.isSome := fun hi hl => by
    obtain ⟨-, hh, -⟩ := hu hi hl
    exact hh
  have wide : isLifecycle i = false → s.life = .ready → s.afw ≠ .unset := fun hi hl => by
    obtain ⟨-, -, ha⟩ := hu hi hl
    exact ha
  cases i with
  | init bus cs g clk =>
    obtain h0 | h1 | h2 | h3 : s.seq.position = 0 ∨ s.seq.position = 1 ∨ s.seq.position = 2 ∨ 3 ≤ s.seq.position := by
      omega
    · rw [exec_init_of_zero h0]
      exact goesOn_closeIfHeld fun _ => trivial
    · rw [exec_init_of_one h1]
      exact goesOn_callOpen (fun _ _ => trivial) fun _ _ => trivial
    · rw [exec_init_of_two h2]
      exact goesOn_callXferFull (hp (by omega)) (fun _ _ => trivial) fun _ _ => trivial
    · rw [exec_init_of_three_le h3]
      exact goesOn_callClose (hp (by omega)) fun _ => trivial
  | destroy =>
    rw [exec_destroy]
    exact goesOn_closeIfHeld fun _ => trivial
  | rdid =>
    exact goesOn_needReady fun hl => goesOn_callXferFull (held rfl hl) (fun _ _ => trivial) fun _ _ => trivial
  | getcap =>
    refine goesOn_needReady fun _ => ?_
    split <;> trivial
  | rdsr =>
    show Result.goesOn s.env (execRdsr s)
    cases hl : s.life with
    | unbound => rw [execRdsr_unbound hl]; trivial
    | ready =>
      rw [execRdsr_ready hl]
      exact goesOn_callXferFull (held rfl hl) (fun _ _ => trivial) fun _ _ => trivial
  | wrsr | wren | wrdi =>
    exact goesOn_needReady fun hl => goesOn_callXfer (held rfl hl) (fun _ _ => trivial) fun _ _ => trivial
  | write =>
    refine goesOn_needReady fun hl => ?_
    split
    · trivial
    split
    · trivial
    exact goesOn_withWidth (wide rfl hl) fun _ => goesOn_needRoom <|
      goesOn_callXfer (held rfl hl) (fun _ _ => trivial) fun _ _ => trivial
  | read =>
    refine goesOn_needReady fun hl => ?_
    split
    · trivial
    exact goesOn_withWidth (wide rfl hl) fun _ => goesOn_needRoom <|
      goesOn_callXferFull (held rfl hl) (fun _ _ => trivial) fun _ _ => trivial

/-- In a good state INIT holds a token from its step 2 on. -/
theorem seqOk_held_of_two_le {s : State} (h : s.seqOk) (hp : 2 ≤ s.seq.position) : s.hnd.isSome := by
  rcases seqOk_position_cases h with hs | ⟨i, hs⟩ | ⟨bus, cs, g, clk, k, rfl | rfl | rfl, hs⟩
  · simp [hs, Seq.position] at hp
  · simp [hs, Seq.position] at hp
  · simp [hs, Seq.position] at hp
  · obtain ⟨-, t, ht, -⟩ := (seqOk_of_identifying hs).mp h
    exact Option.isSome_of_eq_some (congrArg Handle.hnd ht)
  · obtain ⟨-, t, ht, -⟩ := (seqOk_of_closing hs).mp h
    exact Option.isSome_of_eq_some (congrArg Handle.hnd ht)

theorem State.Inv.exec_goesOn {s : State} {i : Instr} (h : s.Inv) (hi : s.seq.admits i) :
    Result.goesOn s.env (exec i s) :=
  Machine.exec_goesOn
    (fun hl hr => usable_of_ready h.seq (hi.position_eq_zero h.seq (ne_init_of_not_lifecycle hl)) hr)
    (seqOk_held_of_two_le h.seq)

/-- From a good state the machine's step goes on too: what is no request's step always answers a next state. -/
theorem State.Inv.step_goesOn {s : State} (h : s.Inv) : Result.goesOn s.env (step s) := by
  generalize hr : step s = r
  rcases step_cases hr with ⟨-, rfl⟩ | ⟨-, -, -, rfl⟩ | ⟨-, -, q, rest, -, -, rfl⟩ | ⟨-, i, k, hb, rfl⟩ |
    ⟨-, hi, q, rest, i, -, -, rfl⟩
  · trivial
  · trivial
  · trivial
  · exact h.exec_goesOn (.inr ⟨k, hb⟩)
  · exact (h.withHost rest).exec_goesOn (.inl hi)

/-! ### The transport stays dutiful -/

theorem Moves.dutiful {s t : State} {i : Instr} (h : Moves s i t) (hd : s.env.link.dutiful) : t.env.link.dutiful := by
  rcases h.env_cases with he | ⟨tx, he⟩ | he | he <;> rw [he]
  · exact hd
  · exact Env.exchange_dutiful _ _ hd
  · exact Env.openBus_dutiful hd
  · exact Env.close_dutiful hd

theorem Env.afterReset_dutiful {e : Env} (b : Bool) (hd : e.link.dutiful) : (e.afterReset b).link.dutiful := by
  cases b with
  | true => trivial
  | false => exact hd

theorem step_dutiful {s t : State} (h : step s = .next t) (hd : s.env.link.dutiful) : t.env.link.dutiful := by
  rcases step_cases h with ⟨-, h⟩ | ⟨-, -, -, h⟩ | ⟨-, -, q, rest, -, -, h⟩ | ⟨-, i, k, -, h⟩ | ⟨-, -, q, rest, i, -, -, h⟩
  · cases h; exact Env.afterReset_dutiful _ hd
  · cases h; exact hd
  · cases h; exact hd
  · exact (exec_moves h).dutiful hd
  · exact (exec_moves h).dutiful hd

/-- Settles O48: a good state's step goes on, and keeps the kind of its transport. -/
theorem goodStatesAlwaysStep : Obligations.GoodStatesAlwaysStep := by
  intro s hs
  refine ⟨hs.step_goesOn.ne_fault, fun hd => ?_⟩
  obtain ⟨t, ht⟩ := hs.step_goesOn.exists_next hd
  exact ⟨t, ht, step_dutiful ht hd⟩

end Sys2Proof.Machine
end

section
/-! O39 and O40 (10_state.md R36, R37): the addressing width and the lifecycle, step by step. -/

namespace Sys2Proof.Machine

/-! ### INIT and DESTROY -/

/-- What one step of INIT, the request `i`, makes of the width and the lifecycle. -/
inductive InitSteps (s : State) (i : Instr) (t : State) : Prop where
  /-- A call waits, or INIT goes on past its `Open` or a failed identifier read. -/
  | goesOn (hr : t.resps = s.resps) (hl : t.life = s.life) (ha : t.afw = s.afw)
      (hs : s.seq.position = 0 → t.seq = .busy i 0)
  /-- The handle is released. -/
  | released (hp : s.seq.position = 0) (hr : t.resps = s.resps) (hs : t.seq = .busy i 1) (ha : t.afw = .unset)
  /-- INIT ends with an error. -/
  | failed {x : I32} (hp : s.seq.position ≠ 0)
      (hr : t.resps = s.resps ++ [{ err := .initializationFailure, xcode := x }]) (hh : t.handle = Handle.empty)
  /-- INIT ends with the handle READY. -/
  | ready (hp : s.seq.position = 2) (hr : t.resps = s.resps ++ [{ idv := t.id }]) (hl : t.life = .ready)
      (ha : t.afw = widthOf (dens t.id))

theorem Moves.initSteps {s t : State} {bus cs : U32} {g : I32} {clk : U32} (h : Moves s (.init bus cs g clk) t) :
    InitSteps s (.init bus cs g clk) t := by
  cases h with
  | stopped h => cases h.not_lifecycle
  | waits _ _ hc | ends _ _ hc => cases readyCall_not_lifecycle hc
  | closeWaits hc =>
    cases hc with
    | release => exact .goesOn rfl rfl rfl fun _ => rfl
    | failed hp => exact .goesOn rfl rfl rfl fun h0 => absurd h0 (by omega)
  | released hp hc => exact .released hp hc.resps rfl rfl
  | openWaits hp | opened hp | identWaits hp | identFails hp =>
    exact .goesOn rfl rfl rfl fun h0 => absurd h0 (by omega)
  | openFails hp | failClosed hp => exact .failed (by omega) rfl rfl
  | identified hp => exact .ready hp rfl rfl rfl

/-- DESTROY ends with the handle's reset value, or waits for its `Close` with the handle as it was. -/
theorem Moves.destroySteps {s t : State} (h : Moves s .destroy t) :
    t.seq = .idle ∧ t.handle = Handle.empty ∨ t.seq = .busy .destroy 0 ∧ t.handle = s.handle := by
  cases h with
  | stopped h => cases h.not_lifecycle
  | waits _ _ hc | ends _ _ hc => cases hc
  | closeWaits hc => cases hc; exact .inr ⟨rfl, rfl⟩
  | destroyed => exact .inl ⟨rfl, rfl⟩

/-! ### The machine's step, with and without a request to run -/

theorem step_of_runs {s : State} {i : Instr} (hr : s.rst = false) (hi : s.runs i) :
    ∃ rest, step s = exec i { s with host := rest } := by
  rcases hi with ⟨k, hs⟩ | ⟨hs, q, rest, hh, hd⟩
  · exact ⟨s.host, step_of_busy hr hs⟩
  · exact ⟨rest, step_of_accept hr hs hh hd⟩

/-- A step that is neither a reset nor a request's leaves the handle. -/
theorem step_handle_of_not_runs {s t : State} (h : step s = .next t) (hr : s.rst = false) (hn : ∀ i, ¬ s.runs i) :
    t.handle = s.handle := by
  rcases step_cases h with ⟨hr', -⟩ | ⟨-, -, -, h⟩ | ⟨-, -, q, rest, -, -, h⟩ | ⟨-, i, k, hs, -⟩ |
    ⟨-, hs, q, rest, i, hh, hd, -⟩
  · cases hr.symm.trans hr'
  · cases h; rfl
  · cases h; rfl
  · exact absurd (.inl ⟨k, hs⟩) (hn i)
  · exact absurd (.inr ⟨hs, q, rest, hh, hd⟩) (hn i)

theorem step_handle_of_rst {s t : State} (h : step s = .next t) (hr : s.rst = true) : t.handle = Handle.empty := by
  cases (step_of_rst hr).symm.trans h
  rfl

/-! ### The two state machines -/

/-- R36 for INIT: its width by the position it stands at. -/
theorem InitSteps.width {s t : State} {i : Instr} (h : InitSteps s i t) :
    (s.seq.position = 0 → t.seq = .busy i 1 ∧ t.afw = .unset ∨ t.seq = .busy i 0 ∧ t.afw = s.afw) ∧
    (s.seq.position = 1 → s.afw = .unset → t.afw = .unset) ∧
    (2 ≤ s.seq.position → t.resps = s.resps → t.afw = s.afw) ∧
    (∀ r, 2 ≤ s.seq.position → t.resps = s.resps ++ [r] →
      (r.err = .ok → t.afw = if 3 < (dens t.id).toNat then .w4 else .w3) ∧ (r.err ≠ .ok → t.afw = .unset)) := by
  cases h with
  | goesOn hr hl ha hs =>
    exact ⟨fun hp => .inr ⟨hs hp, ha⟩, fun _ hu => ha.trans hu, fun _ _ => ha, fun r _ hr' => by simp [hr] at hr'⟩
  | released hp hr hs ha =>
    exact ⟨fun _ => .inl ⟨hs, ha⟩, fun _ _ => ha, fun h2 => by omega, fun r _ hr' => by simp [hr] at hr'⟩
  | @failed x hp hr hh =>
    have ha : t.afw = .unset := congrArg Handle.afw hh
    refine ⟨fun h0 => absurd h0 hp, fun _ _ => ha, fun _ hr' => by simp [hr] at hr',
      fun r _ hr' => ⟨fun he => ?_, fun _ => ha⟩⟩
    obtain rfl : { err := .initializationFailure, xcode := x } = r := by simpa [hr] using hr'
    cases he
  | ready hp hr hl ha =>
    refine ⟨fun h0 => by omega, fun h1 => by omega, fun _ hr' => by simp [hr] at hr',
      fun r _ hr' => ⟨fun _ => ha, fun he => ?_⟩⟩
    obtain rfl : { idv := t.id } = r := by simpa [hr] using hr'
    exact absurd rfl he

/-- R37 for INIT: READY when it ends with no error, UNBOUND when it ends with one. -/
theorem InitSteps.life {s t : State} {i : Instr} {r : Response} (h : InitSteps s i t) (hr' : t.resps = s.resps ++ [r]) :
    (r.err = .ok → t.life = .ready) ∧ (r.err ≠ .ok → t.life = .unbound) := by
  cases h with
  | goesOn hr | released _ hr => simp [hr] at hr'
  | @failed x hp hr hh =>
    obtain rfl : { err := .initializationFailure, xcode := x } = r := by simpa [hr] using hr'
    exact ⟨(nomatch ·), fun _ => congrArg Handle.life hh⟩
  | ready hp hr hl =>
    obtain rfl : { idv := t.id } = r := by simpa [hr] using hr'
    exact ⟨fun _ => hl, fun he => absurd rfl he⟩

/-- Settles O39: by the request whose step it is. -/
theorem widthTransitions : Obligations.WidthTransitions := by
  intro s t h
  refine ⟨fun hr => congrArg Handle.afw (step_handle_of_rst h hr), fun i hr hi => ?_,
    fun hr hn => congrArg Handle.afw (step_handle_of_not_runs h hr hn)⟩
  obtain ⟨rest, hx⟩ := step_of_runs hr hi
  have hm := exec_moves (hx.symm.trans h)
  refine ⟨fun hl => ?_, ?_, ?_⟩
  · obtain ⟨hh, -⟩ := hm.handle_eq hl
    exact congrArg Handle.afw hh
  · rintro rfl
    exact hm.destroySteps.imp (.imp_right (congrArg Handle.afw)) (.imp_right (congrArg Handle.afw))
  · rintro bus cs g clk rfl
    exact hm.initSteps.width

/-- Settles O40: by the request whose step it is. -/
theorem lifecycleTransitions : Obligations.LifecycleTransitions := by
  intro s t h
  refine ⟨fun hr => congrArg Handle.life (step_handle_of_rst h hr), fun i hr hi => ?_,
    fun hr hn => congrArg Handle.life (step_handle_of_not_runs h hr hn)⟩
  obtain ⟨rest, hx⟩ := step_of_runs hr hi
  have hm := exec_moves (hx.symm.trans h)
  refine ⟨fun hl => ?_, ?_, ?_⟩
  · obtain ⟨hh, -⟩ := hm.handle_eq hl
    exact congrArg Handle.life hh
  · rintro rfl
    exact hm.destroySteps.imp (.imp_right (congrArg Handle.life)) (.imp_right (congrArg Handle.life))
  · rintro bus cs g clk r rfl
    exact hm.initSteps.life

end Sys2Proof.Machine
end

section
/-! O55 (20_memory.md R66, R67): WRSR and then RDSR over the reference device. -/

namespace Sys2Proof.Machine

theorem getLsbD_ite_zero (b : Bool) (m : Byte) (k : Nat) : (if b then m else 0).getLsbD k = (b && m.getLsbD k) := by
  cases b <;> simp

/-- R67: the status byte of a device that has just taken `v` is the bits 7, 3 and 2 of `v`. -/
theorem status_writeStatus {c : Chip} (hw : c.wel = true) (v : Byte) : (c.writeStatus v).status = v &&& 0x8C := by
  apply BitVec.eq_of_getLsbD_eq
  intro k hk
  simp only [Chip.writeStatus, hw, if_true, Chip.status, BitVec.getLsbD_or, BitVec.getLsbD_and, getLsbD_ite_zero]
  interval_cases k <;> simp

theorem writeStatus_mem (c : Chip) (v : Byte) : (c.writeStatus v).mem = c.mem := by
  unfold Chip.writeStatus
  split <;> rfl

section Reference
variable {s : State} {h : Token}

/-- WRSR over the reference transport ends with the device having taken the value, and changes nothing else of the environment but
the count of draws (R66, R70). -/
theorem exec_wrsr_reference (hl : s.life = .ready) (hh : s.hnd = some h) (hp : s.par.wf = true)
    (hr : s.env.link = .reference []) (v : Byte) :
    ∃ t, exec (.wrsr v) s = .next t ∧ t.life = .ready ∧ t.hnd = some h ∧ t.par = s.par ∧
      t.env.link = .reference [] ∧ t.env.chip = s.env.chip.writeStatus v := by
  have ha : s.env.xfer s.par (wrsrFrame s.par v) = (.ok 2, (s.env.refExchange s.par (wrsrFrame s.par v)).2) := by
    rw [Env.xfer, Env.exchange_reference _ _ _ hr]
    rfl
  exact ⟨_, (execWrsr_ready hl v).trans (callXfer_ok hh ha), hl, hh, rfl, hr, afterFrame_wrsrFrame hp v _⟩

/-- RDSR over the reference transport answers the device's status byte (R67, R70). -/
theorem exec_rdsr_reference (hl : s.life = .ready) (hh : s.hnd = some h) (hp : s.par.wf = true)
    (hr : s.env.link = .reference []) :
    ∃ t, exec .rdsr s = .next t ∧ t.resps = s.resps ++ [{ sr := s.env.chip.status }] := by
  have ha : s.env.xferFull s.par (rdsrFrame s.par) =
      (.ok (2, [0x00, s.env.chip.status]), (s.env.refExchange s.par (rdsrFrame s.par)).2) := by
    rw [Env.xferFull_eq, Env.exchange_reference _ _ _ hr, ← reply_rdsrFrame hp (Config.drawByte s.env.drawn)]
    rfl
  exact ⟨_, (execRdsr_ready hl).trans (callXferFull_ok hh ha rfl), rfl⟩

end Reference

/-- Settles O55: WRSR leaves the device with the value taken, and RDSR answers its status. -/
theorem wrsrWritesTheWritableBits : Obligations.WrsrWritesTheWritableBits := by
  intro s h v hl hh hp hr hw
  obtain ⟨t, ht, hl', hh', hp', hr', hc⟩ := exec_wrsr_reference hl hh hp hr v
  obtain ⟨u, hu, hresps⟩ := exec_rdsr_reference hl' hh' (hp' ▸ hp) hr'
  refine ⟨t, u, _, ht, hu, hresps, ?_, ?_⟩
  · show t.env.chip.status = _
    rw [hc, status_writeStatus hw]
  · rw [hc, writeStatus_mem]

end Sys2Proof.Machine
end

section
/-! O6, O7, O10 and O43 (20_memory.md R51, R52, R54, R58): what the operands of a request become in its frame, and the one call a
request makes. -/

namespace Sys2Proof.Machine

/-! ### Headers and the identifier (O6, O7) -/

/-- Settles O6: by the definition of the header at each width. -/
theorem frameHeaderIsBigEndian : Obligations.FrameHeaderIsBigEndian :=
  fun _ _ => ⟨rfl, rfl⟩

/-- R54: the identifier as a number. -/
theorem toNat_idFromReply (b0 b1 b2 b3 b4 : Byte) :
    (idFromReply [b0, b1, b2, b3, b4]).toNat =
      b1.toNat + b2.toNat * 2 ^ 8 + b3.toNat * 2 ^ 16 + b4.toNat * 2 ^ 24 := by
  have toNat_append : ∀ {n : Nat} (x : BitVec n) (b : Byte), (x ++ b).toNat = x.toNat * 2 ^ 8 + b.toNat := fun x b => by
    rw [BitVec.toNat_append, ← Nat.shiftLeft_add_eq_or_of_lt b.isLt, Nat.shiftLeft_eq]
  rw [idFromReply_append]
  simp only [toNat_append]
  ring

/-- R24, R54: the density is the reply's byte 3. -/
theorem dens_idFromReply (b0 b1 b2 b3 b4 : Byte) : dens (idFromReply [b0, b1, b2, b3, b4]) = b3 := by
  apply BitVec.eq_of_toNat_eq
  rw [dens, BitVec.extractLsb'_toNat, toNat_idFromReply, Nat.shiftRight_eq_div_pow]
  have h1 := b1.isLt
  have h2 := b2.isLt
  have h3 := b3.isLt
  omega

/-- Settles O7: the identifier's four bytes, and the one that is its density. -/
theorem identifierIsLittleEndian : Obligations.IdentifierIsLittleEndian :=
  fun b0 b1 b2 b3 b4 => ⟨toNat_idFromReply b0 b1 b2 b3 b4, dens_idFromReply b0 b1 b2 b3 b4⟩

/-! ### Address bits above the width (O10) -/

/-- `r'` completes in every state in which `r` completes with the sequencer at IDLE. -/
def CompletesAlike (r r' : Result) : Prop := ∀ t, r = .next t → t.seq = .idle → r' = .next t

section Alike
variable {s : State} {r r' : Result}

theorem CompletesAlike.needReady (h : CompletesAlike r r') : CompletesAlike (needReady s r) (needReady s r') := by
  cases hl : s.life
  · rw [needReady_unbound hl, needReady_unbound hl]
    exact fun _ ht _ => ht
  · rwa [needReady_ready hl, needReady_ready hl]

theorem CompletesAlike.ite {c : Prop} [Decidable c] {k : Result} (h : CompletesAlike r r') :
    CompletesAlike (if c then k else r) (if c then k else r') := by
  split
  · exact fun _ ht _ => ht
  · exact h

theorem CompletesAlike.needRoom {n : Nat} (h : CompletesAlike r r') :
    CompletesAlike (needRoom n s r) (needRoom n s r') := by
  unfold Machine.needRoom
  split
  · exact h
  · exact fun _ ht _ => ht

/-- Only a call that waits shows which request makes it (R27). -/
theorem callXfer_completesAlike (i j : Instr) (k : Nat) (tx : Bytes) (onErr onOk : I32 → State → Result) :
    CompletesAlike (callXfer i k tx s onErr onOk) (callXfer j k tx s onErr onOk) := by
  intro t h hi
  cases hh : s.hnd with
  | none => simp [callXfer, hh] at h
  | some tok =>
    rcases ha : s.env.xfer s.par tx with ⟨_ | c | n, e⟩
    · rw [callXfer_silent hh ha] at h
      cases h
      cases hi
    · rwa [callXfer_err hh ha] at h ⊢
    · rwa [callXfer_ok hh ha] at h ⊢

theorem callXferFull_completesAlike (i j : Instr) (k : Nat) (tx : Bytes) (onErr onOk : I32 → State → Result) :
    CompletesAlike (callXferFull i k tx s onErr onOk) (callXferFull j k tx s onErr onOk) := by
  intro t h hi
  cases hh : s.hnd with
  | none => simp [callXferFull, hh] at h
  | some tok =>
    rcases ha : s.env.xferFull s.par tx with ⟨_ | c | ⟨c, rx⟩, e⟩
    · rw [callXferFull_silent hh ha] at h
      cases h
      cases hi
    · rwa [callXferFull_err hh ha] at h ⊢
    · by_cases hl : rx.length = tx.length
      · rwa [callXferFull_ok hh ha hl] at h ⊢
      · simp [callXferFull, hh, ha, hl] at h

end Alike

/-- Settles O10: the two requests send the same frame, since its address bytes are the same. -/
theorem highAddressBitsAreDropped : Obligations.HighAddressBitsAreDropped := by
  intro s t a b ha hab hi
  have hbytes : addrBytes a (s.afw.code - 1) = addrBytes b (s.afw.code - 1) := addrBytes_congr _ hab
  constructor
  · intro p d h
    have hf : writeFrame s.par s.afw.code a d = writeFrame s.par s.afw.code b d := by
      simp only [writeFrame, frameHeader, hbytes]
    have alike : CompletesAlike (execWrite a p d s) (execWrite b p d s) := by
      simp only [execWrite, withWidth_set ha, hf]
      exact .needReady (.ite (.ite (.needRoom (callXfer_completesAlike _ _ _ _ _ _))))
    exact alike t h hi
  · intro n h
    have hf : readFrame s.par s.afw.code a n = readFrame s.par s.afw.code b n := by
      simp only [readFrame, frameHeader, hbytes]
    have alike : CompletesAlike (execRead a n s) (execRead b n s) := by
      simp only [execRead, withWidth_set ha, hf]
      exact .needReady (.ite (.needRoom (callXferFull_completesAlike _ _ _ _ _ _)))
    exact alike t h hi

/-! ### The one call of a request (O43) -/

/-- Settles O43: by what a request can do in one step; only an ending that its call brings adds to the trace. -/
theorem eachRequestMakesItsOneCall : Obligations.EachRequestMakesItsOneCall := by
  intro s t i hi h
  cases exec_moves h with
  | stopped | noStatus | capacity | waits => exact .inl rfl
  | ends _ hh hc => exact .inr ⟨_, _, _, hh, hc, rfl⟩
  | closeWaits hc => simp [hc.lifecycle] at hi
  | destroyed | released | openWaits | openFails | opened | identWaits | identFails | failClosed | identified => cases hi

end Sys2Proof.Machine
end

section
/-! O51 to O54, O59 and O60 (20_memory.md R62 to R70): a request that passes its checks on a READY handle, over the reference
transport. -/

namespace Sys2Proof.Machine

/-! ### A request whose frame is sent and answered -/

theorem Env.xfer_of_exchange {p : Config} {tx : Bytes} {e e' : Env} {a : Answer (I32 × Bytes)}
    (h : e.exchange p tx = (a, e')) : e.xfer p tx = (a.map Prod.fst, e') := by
  rw [Env.xfer, h]

section Sent
variable {s : State} {h : Token} {i : Instr} {call : Call} {tx : Bytes}

/-- R207: a failed call ends its request with the code, or with the sentinel of RDSR (R141). -/
theorem exec_of_failed {c : I32} {e : Env} (hl : s.life = .ready) (hh : s.hnd = some h) (hs : s.sendable i)
    (hc : readyCall s.par h s.afw i = some call) (hf : call.frame = some tx) (ha : s.env.exchange s.par tx = (.err c, e)) :
    exec i s = .next (respond (if i = .rdsr then { sr := srSentinel } else { err := .transferError, xcode := c })
      (answered call (.failed c) { s with env := e })) := by
  have hx := Env.xfer_of_exchange ha
  cases i with
  | init | destroy | getcap => cases hc
  | rdid => cases hc; cases hf; exact (execRdid_ready hl).trans (callXferFull_err hh ha)
  | rdsr => cases hc; cases hf; exact (execRdsr_ready hl).trans (callXferFull_err hh ha)
  | wrsr v => cases hc; cases hf; exact (execWrsr_ready hl v).trans (callXfer_err hh hx)
  | wren => cases hc; cases hf; exact (execWren_ready hl).trans (callXfer_err hh hx)
  | wrdi => cases hc; cases hf; exact (execWrdi_ready hl).trans (callXfer_err hh hx)
  | write => cases hc; cases hf; exact (execWrite_sends hl hs).trans (callXfer_err hh hx)
  | read => cases hc; cases hf; exact (execRead_sends hl hs).trans (callXferFull_err hh ha)

/-- A call that succeeds ends its request with the count, or with the code and the reply bytes. -/
theorem exec_of_succeeded {n : I32} {rx : Bytes} {e : Env} (hl : s.life = .ready) (hh : s.hnd = some h)
    (hs : s.sendable i) (hc : readyCall s.par h s.afw i = some call) (hf : call.frame = some tx)
    (ha : s.env.exchange s.par tx = (.ok (n, rx), e)) (hn : rx.length = tx.length) :
    ∃ rp id r, exec i s = .next (respond r { answered call rp { s with env := e } with id := id }) ∧
      Ends s i rp id r ∧ (rp = .count n ∨ rp = .full n rx) := by
  have hx := Env.xfer_of_exchange ha
  cases i with
  | init | destroy | getcap => cases hc
  | rdid => cases hc; cases hf; exact ⟨_, _, _, (execRdid_ready hl).trans (callXferFull_ok hh ha hn), .ident, .inr rfl⟩
  | rdsr => cases hc; cases hf; exact ⟨_, _, _, (execRdsr_ready hl).trans (callXferFull_ok hh ha hn), .status, .inr rfl⟩
  | wrsr v =>
    cases hc; cases hf
    exact ⟨_, _, _, (execWrsr_ready hl v).trans (callXfer_ok hh hx), .plain (.inr (.inr ⟨v, rfl⟩)), .inl rfl⟩
  | wren =>
    cases hc; cases hf
    exact ⟨_, _, _, (execWren_ready hl).trans (callXfer_ok hh hx), .plain (.inl rfl), .inl rfl⟩
  | wrdi =>
    cases hc; cases hf
    exact ⟨_, _, _, (execWrdi_ready hl).trans (callXfer_ok hh hx), .plain (.inr (.inl rfl)), .inl rfl⟩
  | write => cases hc; cases hf; exact ⟨_, _, _, (execWrite_sends hl hs).trans (callXfer_ok hh hx), .written, .inl rfl⟩
  | read => cases hc; cases hf; exact ⟨_, _, _, (execRead_sends hl hs).trans (callXferFull_ok hh ha hn), .data, .inr rfl⟩

/-- The same over the reference transport with no injection: the device takes the whole frame (R70). -/
theorem exec_reference (hl : s.life = .ready) (hh : s.hnd = some h) (hs : s.sendable i)
    (hc : readyCall s.par h s.afw i = some call) (hf : call.frame = some tx) (hr : s.env.link = .reference []) :
    ∃ rp id r, exec i s = .next (respond r
        { answered call rp { s with env := (s.env.refExchange s.par tx).2 } with id := id }) ∧
      Ends s i rp id r ∧ (rp = .count (BitVec.ofNat 32 tx.length) ∨
        rp = .full (BitVec.ofNat 32 tx.length) (s.env.chip.reply s.par (Config.drawByte s.env.drawn) tx)) :=
  exec_of_succeeded hl hh hs hc hf (Env.exchange_of_reference hr) (Chip.length_reply _ _ _ _)

/-- A call that succeeds ends its request with ERR 0. -/
theorem Ends.err_ok {rp : Reply} {id : U32} {r : Response} {n : I32} {rx : Bytes} (he : Ends s i rp id r)
    (hrp : rp = .count n ∨ rp = .full n rx) : r.err = .ok := by
  cases he with
  | error | sentinel => simp at hrp
  | status | plain | written | ident | data => rfl

end Sent

/-! ### A failed transfer (O59) -/

/-- An injected failure: the device sees the first `seen` bytes of the frame (R70, R207). -/
theorem Env.exchange_of_fail {p : Config} {tx : Bytes} {e : Env} {c : I32} {seen : Nat} {rest : List Inject}
    (h : e.link = .reference (.fail c seen :: rest)) :
    e.exchange p tx =
      (.err c, { e with link := .reference rest, chip := e.chip.afterFrame p (tx.take seen) }) := by
  simp only [Env.exchange, h]

/-- Settles O59: the call of the request's row fails, with the injected part of its frame taken by the device. -/
theorem failedTransferLeavesAPrefixOfItsEffect : Obligations.FailedTransferLeavesAPrefixOfItsEffect := by
  intro s h i c seen rest call tx hl hh hr hs hc hf
  refine ⟨_, exec_of_failed hl hh hs hc hf (Env.exchange_of_fail hr), rfl, ?_, rfl, rfl⟩
  rintro rfl
  rfl

/-! ### Writes with the latch clear (O53) -/

theorem Chip.writeFrame_discarded {c : Chip} (hw : c.wel = false) (args : Bytes) : c.writeFrame args = c := by
  simp [Chip.writeFrame, hw]

theorem Chip.writeStatus_discarded {c : Chip} (hw : c.wel = false) (v : Byte) : c.writeStatus v = c := by
  simp [Chip.writeStatus, hw]

/-- Settles O53: the device takes the whole frame and discards it. -/
theorem writeWithoutLatchIsDiscarded : Obligations.WriteWithoutLatchIsDiscarded := by
  intro s t h i hl hh hp hr hw hi hs ht
  have discarded : ∀ {call tx}, readyCall s.par h s.afw i = some call → call.frame = some tx →
      s.env.chip.afterFrame s.par tx = s.env.chip →
      t.env.chip = s.env.chip ∧ ∃ r, t.resps = s.resps ++ [r] ∧ r.err = .ok := by
    intro call tx hc hf hchip
    obtain ⟨rp, id, r, hx, he, hrp⟩ := exec_reference hl hh hs hc hf hr
    cases hx.symm.trans ht
    exact ⟨hchip, r, rfl, he.err_ok hrp⟩
  rcases hi with ⟨a, d, rfl⟩ | ⟨v, rfl⟩
  · exact discarded rfl rfl ((afterFrame_writeFrame _ _ _ _ _).trans (Chip.writeFrame_discarded hw _))
  · exact discarded rfl rfl ((afterFrame_wrsrFrame hp _ _).trans (Chip.writeStatus_discarded hw _))

/-! ### The latch in the status (O54) -/

/-- A request whose frame sets the latch to `b`, and then RDSR, answers the status with the latch at `b` (R67, R68). -/
theorem latch_then_status {s : State} {h : Token} {i : Instr} {call : Call} {tx : Bytes} {b : Bool} (hl : s.life = .ready)
    (hh : s.hnd = some h) (hp : s.par.wf = true) (hr : s.env.link = .reference []) (hs : s.sendable i)
    (hc : readyCall s.par h s.afw i = some call) (hf : call.frame = some tx)
    (hb : s.env.chip.afterFrame s.par tx = s.env.chip.setWel b) :
    ∃ t u r, exec i s = .next t ∧ exec .rdsr t = .next u ∧ u.resps = t.resps ++ [r] ∧
      r.sr = ({ s.env.chip with wel := b } : Chip).status ∧ r.sr.getLsbD 1 = b := by
  obtain ⟨rp, id, r, ht, -⟩ := exec_reference hl hh hs hc hf hr
  obtain ⟨u, hu, hresps⟩ := exec_rdsr_reference (s := respond r
    { answered call rp { s with env := (s.env.refExchange s.par tx).2 } with id := id }) hl hh hp hr
  have hstatus := congrArg Chip.status hb
  exact ⟨_, u, _, ht, hu, hresps, hstatus, (congrArg (·.getLsbD 1) hstatus).trans (status_wel _)⟩

/-- Settles O54: by the two requests that set and clear the latch. -/
theorem latchIsSeenInTheStatus : Obligations.LatchIsSeenInTheStatus :=
  fun _ _ hl hh hp hr =>
    ⟨latch_then_status (i := .wren) hl hh hp hr trivial rfl rfl (afterFrame_wren hp _),
      latch_then_status (i := .wrdi) hl hh hp hr trivial rfl rfl (afterFrame_wrdi hp _)⟩

/-! ### Blocks of the array (O51, O52, O60) -/

/-- R51, R62, R63: where the block of a WRITE or READ of `a` begins in the device's array. -/
def Chip.base (c : Chip) (a : U32) : Nat := a.toNat % 2 ^ (8 * c.ndev) % c.cap

theorem Afw.ne_unset_of_code {w : Afw} {n : Nat} (h : w.code = n + 1) : w ≠ .unset := by
  rintro rfl
  cases h

/-- R64, R56: the payload of the device's reply to READ is the block of its array. -/
theorem payload_readReply {c : Chip} {w : Nat} (hw : w = c.ndev + 1) (a : U32) (n : Nat) :
    payload (replyOf (w + n) (c.readReply (addrBytes a (w - 1) ++ fill n))) w n = c.memRead (c.base a) n := by
  have hreply : c.readReply (addrBytes a (w - 1) ++ fill n) = List.replicate w 0x00 ++ c.memRead (c.base a) n := by
    rw [Chip.readReply, frameAddr_addrBytes hw, Chip.base]
    subst hw
    simp [Nat.add_comm]
  have hmem : (c.memRead (c.base a) n).length = n := Memory.length_readBlock _ _ _ _
  rw [hreply, replyOf_of_length (by simp [hmem]), payload, List.drop_left' (by simp), List.take_of_length_le hmem.le]

section Blocks
variable {s : State} {h : Token}

/-- An honoured WRITE over the reference transport (R65). -/
theorem exec_write_honoured (hl : s.life = .ready) (hh : s.hnd = some h) (hr : s.env.link = .reference [])
    (hwel : s.env.chip.wel = true) (hw : s.afw.code = s.env.chip.ndev + 1) (a : U32) {d : Bytes} (hd : d ≠ [])
    (hfit : s.par.fits (s.afw.code + d.length) = true) :
    ∃ t, exec (.write a true d) s = .next t ∧ t.life = .ready ∧ t.hnd = some h ∧ t.par = s.par ∧ t.afw = s.afw ∧
      t.env.link = .reference [] ∧ t.env.chip = { s.env.chip.memWrite (s.env.chip.base a) d with wel := false } := by
  obtain ⟨rp, id, r, ht, -⟩ := exec_reference (i := .write a true d) hl hh
    ⟨rfl, hd, Afw.ne_unset_of_code hw, hfit⟩ rfl rfl hr
  exact ⟨_, ht, hl, hh, rfl, rfl, hr, (afterFrame_writeFrame _ _ _ _ _).trans (writeFrame_honoured hw hwel a d)⟩

/-- READ over the reference transport (R64, R161). -/
theorem exec_read_reference (hl : s.life = .ready) (hh : s.hnd = some h) (hp : s.par.wf = true)
    (hr : s.env.link = .reference []) (hw : s.afw.code = s.env.chip.ndev + 1) (a : U32) {n : I32} (hn : 0 < n.toInt)
    (hfit : s.par.fits (s.afw.code + readCount n) = true) :
    ∃ t r, exec (.read a n) s = .next t ∧ t.resps = s.resps ++ [r] ∧ r.err = .ok ∧
      r.data = s.env.chip.memRead (s.env.chip.base a) (readCount n) ∧ t.env.chip = s.env.chip := by
  have ha := Afw.ne_unset_of_code hw
  obtain ⟨rp, id, r, ht, he, hrp⟩ := exec_reference (i := .read a n) hl hh ⟨hn, ha, hfit⟩ rfl rfl hr
  refine ⟨_, r, ht, rfl, he.err_ok hrp, ?_, ?_⟩
  · cases he with
    | error => simp at hrp
    | plain hi => simp at hi
    | data =>
      obtain ⟨rfl, rfl⟩ := by simpa using hrp
      rw [reply_readFrame _ _ (Afw.code_pos ha), payload_readReply hw]
  · have hall := afterFrame_take_readFrame hp (readFrame s.par s.afw.code a n).length s.afw.code a n s.env.chip
    rwa [List.take_length] at hall

end Blocks

/-- Settles O60: byte `i` of the block read. -/
theorem deviceReadReturnsTheBlock : Obligations.DeviceReadReturnsTheBlock := by
  intro s h a n hl hh hr hp hw hn hfit base
  obtain ⟨t, r, ht, hresps, herr, hdata, hchip⟩ := exec_read_reference hl hh hp hr hw a hn hfit
  refine ⟨t, r, ht, hresps, herr, ?_, fun i hi => ?_, hchip⟩
  · rw [hdata]
    exact Memory.length_readBlock _ _ _ _
  · rw [hdata]
    exact Memory.getElem?_readBlock _ _ hi

/-- Settles O51: WRITE stores the block, and READ of the same block answers it. -/
theorem writeThenReadReturnsTheData : Obligations.WriteThenReadReturnsTheData := by
  intro s h a d hl hh hp hr hm hwel hw hd hcap hlen hfit
  have hpos : 0 < d.length := List.length_pos_iff.mpr hd
  have hint : (BitVec.ofNat 32 d.length).toInt = d.length := by
    have hnat : (BitVec.ofNat 32 d.length).toNat = d.length := Nat.mod_eq_of_lt (by omega)
    rw [BitVec.toInt_eq_toNat_of_lt (by omega), hnat]
  have hcount : readCount (BitVec.ofNat 32 d.length) = d.length := by rw [readCount, hint, Int.toNat_natCast]
  obtain ⟨t, ht, hl', hh', hp', ha', hr', hc⟩ := exec_write_honoured hl hh hr hwel hw a hd hfit
  have hw' : t.afw.code = t.env.chip.ndev + 1 := by rw [ha', hc]; exact hw
  obtain ⟨u, r, hu, hresps, herr, hdata, -⟩ := exec_read_reference hl' hh' (hp' ▸ hp) hr' hw' a
    (n := BitVec.ofNat 32 d.length) (by omega) (by rw [hp', ha', hcount]; exact hfit)
  refine ⟨t, u, r, ht, hu, hresps, herr, ?_⟩
  rw [hdata, hcount, hc]
  exact Memory.readBlock_writeBlock hm.1 _ d hcap

/-- R65: byte `i` of a block of any length, unless a later byte comes to the same address. -/
theorem Memory.get_writeBlock_last {cap : Nat} {m : Memory} (hm : m.wf = true) (a : Nat) (v : Bytes) (i : Nat) (b : Byte)
    (hi : v[i]? = some b) (hlast : ∀ j < v.length, i < j → (a + j) % cap ≠ (a + i) % cap) :
    (Memory.writeBlock cap m a v).get ((a + i) % cap) = b := by
  induction v generalizing m a i with
  | nil => simp at hi
  | cons c cs ih =>
    have later : ∀ j < cs.length, i < j + 1 → (a + 1 + j) % cap ≠ (a + i) % cap := fun j hj hij => by
      rw [show a + 1 + j = a + (j + 1) by omega]
      exact hlast (j + 1) (by simpa using hj) hij
    rw [Memory.writeBlock]
    cases i with
    | zero =>
      obtain rfl : c = b := by simpa using hi
      rw [Memory.get_writeBlock_other (Memory.wf_set hm _ _) _ _ _ fun j hj => later j hj (by omega),
        Memory.get_set hm, Nat.add_zero, if_pos rfl]
    | succ i =>
      rw [show a + (i + 1) = a + 1 + i by omega] at later ⊢
      exact ih (Memory.wf_set hm _ _) (a + 1) i (by simpa using hi) fun j hj hij => later j hj (by omega)

/-- Settles O52: the bytes of the block write that the device makes. -/
theorem honouredWriteStoresItsBlock : Obligations.HonouredWriteStoresItsBlock := by
  intro s t h a d hl hh hp hr hm hwel hw hd hfit ht base
  obtain ⟨t', ht', -, -, -, -, -, hc⟩ := exec_write_honoured hl hh hr hwel hw a hd hfit
  cases ht'.symm.trans ht
  have hmem : t.env.chip.mem = Memory.writeBlock s.env.chip.cap s.env.chip.mem base d := congrArg Chip.mem hc
  refine ⟨fun i b hi hlast => ?_, fun hcap i b hi => ?_, fun x hx => ?_, hmem, ?_⟩
  · rw [hmem]
    exact Memory.get_writeBlock_last hm.1 base d i b hi hlast
  · rw [hmem]
    exact Memory.get_writeBlock hm.1 base d hcap i b hi
  · rw [hmem]
    exact Memory.get_writeBlock_other hm.1 base d x hx
  · rw [hc]
    exact ⟨rfl, rfl, rfl, rfl, rfl⟩

end Sys2Proof.Machine
end

section
/-! O56 to O58 (20_memory.md R59, R62, R69, 70_reset_and_hazards.md R241): what a request does to the reference device, and INIT
over the reference transport. -/

namespace Sys2Proof.Machine

/-! ### What a request's frame can do to the device -/

/-- `tx` is a frame that request `i` may put on the port (R85, R110). -/
def Sends (s : State) (i : Instr) (tx : Bytes) : Prop :=
  (∃ h c, readyCall s.par h s.afw i = some c ∧ c.frame = some tx) ∨ isLifecycle i = true ∧ tx = idFrame s.par

/-- The device is as it was, or as a first part of a frame that request `i` may send leaves it. -/
def ChipAfter (s : State) (i : Instr) (c : Chip) : Prop :=
  c = s.env.chip ∨ ∃ tx n, Sends s i tx ∧ c = s.env.chip.afterFrame s.par (tx.take n)

theorem Sends.chipAfter {s : State} {i : Instr} {tx : Bytes} (h : Sends s i tx) :
    ChipAfter s i (s.env.exchange s.par tx).2.chip :=
  (s.env.exchange_chip s.par tx).imp_right fun ⟨n, hn⟩ => ⟨tx, n, h, hn⟩

/-- Whatever the transport, a step shows the device no more than the request's frame. -/
theorem Moves.chipAfter {s t : State} {i : Instr} (h : Moves s i t) : ChipAfter s i t.env.chip := by
  cases h with
  | stopped | noStatus | capacity => exact .inl rfl
  | waits _ _ hc _ hf | ends _ _ hc _ hf => exact Sends.chipAfter (.inl ⟨_, _, hc, hf⟩)
  | identWaits | identFails | identified => exact Sends.chipAfter (.inr ⟨rfl, rfl⟩)
  | openWaits | openFails | opened => exact .inl (Env.openBus_chip _)
  | closeWaits | failClosed => exact .inl (Env.close_chip _)
  | destroyed hc | released _ hc =>
    cases hc with
    | absent => exact .inl rfl
    | closed => exact .inl (Env.close_chip _)

/-! ### The array (O57) -/

/-- Only a frame that begins with WRITE's op-code changes the array (R64 to R69). -/
theorem afterFrame_take_mem {p : Config} {op : Byte} (hop : op ≠ p.opcWrite) (args : Bytes) (n : Nat) (c : Chip) :
    (c.afterFrame p ((op :: args).take n)).mem = c.mem := by
  cases n with
  | zero => rfl
  | succ n =>
    simp only [List.take_succ_cons, Chip.afterFrame, if_neg hop]
    split
    · unfold Chip.wrsrFrame
      split
      · rfl
      · exact writeStatus_mem _ _
    · split
      · rfl
      · split <;> rfl

/-- R6: WRITE's op-code differs from those of the three requests that set the status or the latch. -/
theorem Config.ne_opcWrite {p : Config} (h : p.wf = true) :
    p.opcWrsr ≠ p.opcWrite ∧ p.opcWren ≠ p.opcWrite ∧ p.opcWrdi ≠ p.opcWrite := by
  have := Config.nodup_of_wf h
  simp only [Config.opcodes, List.nodup_cons, List.mem_cons, not_or] at this
  tauto

/-- A request other than WRITE sends no frame that changes the array. -/
theorem Sends.keeps_mem {s : State} {i : Instr} {tx : Bytes} (h : Sends s i tx) (hp : s.par.wf = true)
    (hi : ∀ a p d, i ≠ .write a p d) (n : Nat) (c : Chip) : (c.afterFrame s.par (tx.take n)).mem = c.mem := by
  obtain ⟨hwrsr, hwren, hwrdi⟩ := Config.ne_opcWrite hp
  rcases h with ⟨_, _, hc, hf⟩ | ⟨-, rfl⟩
  · cases i with
    | init | destroy | getcap => cases hc
    | rdid => cases hc; cases hf; rw [afterFrame_take_idFrame hp]
    | rdsr => cases hc; cases hf; rw [afterFrame_take_rdsrFrame hp]
    | read => cases hc; cases hf; rw [afterFrame_take_readFrame hp]
    | wrsr => cases hc; cases hf; exact afterFrame_take_mem hwrsr _ n c
    | wren => cases hc; cases hf; exact afterFrame_take_mem hwren _ n c
    | wrdi => cases hc; cases hf; exact afterFrame_take_mem hwrdi _ n c
    | write a p d => exact absurd rfl (hi a p d)
  · rw [afterFrame_take_idFrame hp]

/-- Settles O57: by the frame the request sends, of which the device may see a part. -/
theorem onlyWriteChangesTheArray : Obligations.OnlyWriteChangesTheArray := by
  intro s t i hp hi h
  rcases (exec_moves h).chipAfter with hc | ⟨tx, n, hs, hc⟩ <;> rw [hc]
  · exact ⟨rfl, rfl⟩
  · exact ⟨hs.keeps_mem hp hi n _, Chip.afterFrame_idb _ _ _⟩

/-! ### The latch (O56) -/

/-- R241: INIT, DESTROY, RDID, GETCAP, RDSR, WREN and READ. -/
def keepsLatch (i : Instr) : Prop :=
  isLifecycle i = true ∨ i = .rdid ∨ i = .getcap ∨ i = .rdsr ∨ i = .wren ∨ ∃ a n, i = .read a n

theorem Sends.keeps_wel {s : State} {i : Instr} {tx : Bytes} (h : Sends s i tx) (hp : s.par.wf = true) (hi : keepsLatch i)
    (n : Nat) {c : Chip} (hw : c.wel = true) : (c.afterFrame s.par (tx.take n)).wel = true := by
  rcases h with ⟨_, _, hc, hf⟩ | ⟨-, rfl⟩
  · cases i with
    | init | destroy | getcap => cases hc
    | rdid => cases hc; cases hf; rwa [afterFrame_take_idFrame hp]
    | rdsr => cases hc; cases hf; rwa [afterFrame_take_rdsrFrame hp]
    | read => cases hc; cases hf; rwa [afterFrame_take_readFrame hp]
    | wren =>
      cases hc; cases hf
      cases n with
      | zero => exact hw
      | succ n => rw [List.take_succ_cons, List.take_nil, afterFrame_wren hp]; rfl
    | wrsr | wrdi | write => simp [keepsLatch, isLifecycle] at hi
  · rwa [afterFrame_take_idFrame hp]

/-- Over the reference transport a call of a READY request that is answered has shown the device its whole frame (R70). -/
theorem Moves.chip_of_answered {s t : State} {i : Instr} (h : Moves s i t) (hi : isLifecycle i = false)
    (hr : s.env.link = .reference []) (ht : t.trace ≠ s.trace) :
    ∃ hd c tx, readyCall s.par hd s.afw i = some c ∧ c.frame = some tx ∧
      t.env.chip = s.env.chip.afterFrame s.par tx := by
  cases h with
  | stopped | noStatus | capacity | waits => exact absurd rfl ht
  | ends _ _ hc _ hf => exact ⟨_, _, _, hc, hf, congrArg (·.2.chip) (Env.exchange_reference _ _ _ hr)⟩
  | closeWaits hc => simp [hc.lifecycle] at hi
  | destroyed | released | openWaits | openFails | opened | identWaits | identFails | failClosed | identified => cases hi

/-- A WRITE that goes on is stopped by a check, or has passed them all (R208). -/
theorem execWrite_raises_or_sendable {a : U32} {p : Bool} {d : Bytes} {s t : State}
    (h : execWrite a p d s = .next t) : (∃ e, t = raise e 0 s) ∨ s.sendable (.write a p d) := by
  rcases needReady_cases h with ⟨-, h⟩ | ⟨-, h⟩
  · cases h; exact .inl ⟨_, rfl⟩
  split at h
  · cases h; exact .inl ⟨_, rfl⟩
  split at h
  · cases h; exact .inl ⟨_, rfl⟩
  rcases withWidth_cases h with ⟨-, h⟩ | ⟨ha, h⟩
  · cases h
  rcases needRoom_cases h with ⟨-, h⟩ | ⟨hr, h⟩
  · cases h; exact .inl ⟨_, rfl⟩
  · exact .inr ⟨by simpa using ‹¬ p = false›, ‹_›, ha, hr⟩

/-- A WRITE with data clears the latch whatever the widths: its shortest frame is an op-code and three bytes, and no device expects
more address bytes than that (R62, R65). -/
theorem afterFrame_writeFrame_wel {s : State} {a : U32} {d : Bytes} (ha : s.afw ≠ .unset) (hd : d ≠ []) (c : Chip)
    (hw : c.wel = true) : (c.afterFrame s.par (writeFrame s.par s.afw.code a d)).wel = false := by
  have hpos : 0 < d.length := List.length_pos_iff.mpr hd
  have hcode : 3 ≤ s.afw.code := by
    cases h : s.afw with
    | unset => exact absurd h ha
    | w3 | w4 => decide
  have hndev : c.ndev ≤ 3 := by unfold Chip.ndev; split <;> omega
  have hlen : c.ndev ≤ (addrBytes a (s.afw.code - 1) ++ d).length := by
    rw [List.length_append, length_addrBytes]
    omega
  rw [afterFrame_writeFrame, Chip.writeFrame, if_pos (by simpa [hw] using hlen)]

/-- Settles O56: by the frame the request sends, of which the device sees all when the call is answered. -/
theorem whichRequestsClearTheLatch : Obligations.WhichRequestsClearTheLatch := by
  intro s t i hp hr hw h
  refine ⟨fun hi => ?_, fun hi ht => ?_⟩
  · rcases (exec_moves h).chipAfter with hc | ⟨tx, n, hs, hc⟩ <;> rw [hc]
    · exact hw
    · exact hs.keeps_wel hp hi n hw
  · have hlife : isLifecycle i = false := by rcases hi with rfl | ⟨v, rfl⟩ | ⟨a, p, d, rfl⟩ <;> rfl
    obtain ⟨_, _, tx, hc, hf, hchip⟩ := (exec_moves h).chip_of_answered hlife hr ht
    rw [hchip]
    rcases hi with rfl | ⟨v, rfl⟩ | ⟨a, p, d, rfl⟩ <;> cases hc <;> cases hf
    · rw [afterFrame_wrdi hp]; rfl
    · rw [afterFrame_wrsrFrame hp, Chip.writeStatus, if_pos hw]
    · rcases execWrite_raises_or_sendable h with ⟨e, rfl⟩ | ⟨-, hd, ha, -⟩
      · exact absurd rfl ht
      · exact afterFrame_writeFrame_wel ha hd _ hw

/-! ### INIT over the reference transport (O58) -/

/-- R62, R133: the width selected for a device's density is one more than the address bytes it expects. -/
theorem code_widthOf (c : Chip) : (widthOf c.idb.b2).code = c.ndev + 1 := by
  unfold widthOf Chip.ndev
  split <;> rfl

section Init
variable {bus cs : U32} {g : I32} {clk : U32} {s : State}

/-- INIT step 0: a held handle is closed, and the device sees nothing (R70). -/
theorem exec_init_release_reference (hs : s.seq = .idle) (hr : s.env.link = .reference []) :
    ∃ t, exec (.init bus cs g clk) s = .next t ∧ t.seq = .busy (.init bus cs g clk) 1 ∧ t.par = s.par ∧
      t.env = s.env := by
  have hc : s.env.close = (.done, s.env) := by simp only [Env.close, hr]
  rw [exec_init_of_zero (by rw [hs]; rfl)]
  cases hh : s.hnd with
  | none => exact ⟨_, closeIfHeld_none hh, rfl, rfl, rfl⟩
  | some tok => exact ⟨_, (closeIfHeld_some hh).trans (callClose_done hh hc), rfl, rfl, rfl⟩

/-- INIT step 1: the reference transport opens with the token 1 (R70). -/
theorem exec_init_open_reference (hs : s.seq = .busy (.init bus cs g clk) 1) (hr : s.env.link = .reference []) :
    ∃ t, exec (.init bus cs g clk) s = .next t ∧ t.seq = .busy (.init bus cs g clk) 2 ∧ t.hnd = some 1 ∧ t.par = s.par ∧
      t.env = s.env := by
  have ho : s.env.openBus = (.ok 1, s.env) := by simp only [Env.openBus, hr]
  rw [exec_init_of_one (Seq.position_of_busy hs), initOpen, callOpen, ho]
  exact ⟨_, rfl, rfl, rfl, rfl, rfl⟩

/-- INIT step 2: the device answers its identifier, which selects the width (R69, R110). -/
theorem exec_init_identify_reference {h : Token} (hs : s.seq = .busy (.init bus cs g clk) 2) (hh : s.hnd = some h)
    (hp : s.par.wf = true) (hr : s.env.link = .reference []) :
    ∃ t, exec (.init bus cs g clk) s = .next t ∧ t.life = .ready ∧ t.hnd = some h ∧ t.env.chip = s.env.chip ∧
      t.id = idFromReply s.env.chip.idReply ∧ t.afw = widthOf (dens t.id) := by
  have ha : s.env.xferFull s.par (idFrame s.par) =
      (.ok (5, s.env.chip.idReply), (s.env.refExchange s.par (idFrame s.par)).2) := by
    rw [Env.xferFull_eq, Env.exchange_reference _ _ _ hr, ← reply_idFrame hp (Config.drawByte s.env.drawn)]
    rfl
  rw [exec_init_of_two (Seq.position_of_busy hs)]
  refine ⟨_, callXferFull_ok hh ha rfl, rfl, hh, ?_, rfl, rfl⟩
  exact afterFrame_take_idFrame hp 5 s.env.chip

end Init

/-- Settles O58: INIT's three steps one after the other. -/
theorem initMatchesTheReferenceDevice : Obligations.InitMatchesTheReferenceDevice := by
  intro bus cs g clk s hs hp hr
  obtain ⟨s1, h1, hs1, hp1, he1⟩ := exec_init_release_reference hs hr
  obtain ⟨s2, h2, hs2, hh2, hp2, he2⟩ := exec_init_open_reference hs1 (he1 ▸ hr)
  have he : s2.env = s.env := he2.trans he1
  obtain ⟨t, h3, hl, hh, hchip, hid, hafw⟩ :=
    exec_init_identify_reference hs2 hh2 (by rwa [hp2, hp1]) (he ▸ hr)
  rw [he] at hchip hid
  have hdens : dens t.id = s.env.chip.idb.b2 := by rw [hid]; exact dens_idFromReply _ _ _ _ _
  refine ⟨s1, s2, t, h1, h2, h3, hl, hh, hchip, ?_, hdens, hid⟩
  rw [hafw, hdens, code_widthOf]

end Sys2Proof.Machine
end

section
/-! O1 to O4 and O14 (30_encoding.md R80, R81, R86): a record decodes to the one request it carries, and the CMD values that
carry none are the reserved ones. -/

namespace Sys2Proof

/-! ### What a record carries (O1, O2) -/

/-- The CMD byte and the operand fields of a record that decodes are those of the request. -/
theorem carries_of_decode {r : HostReq} {i : Instr} (h : decode r = .ok i) : r.carries i := by
  rcases decode_ok_cases h with ⟨hc, rfl⟩ | ⟨hc, rfl⟩ | ⟨hc, rfl⟩ | ⟨hc, rfl⟩ | ⟨hc, rfl⟩ | ⟨hc, rfl⟩ | ⟨hc, rfl⟩ |
    ⟨hc, rfl⟩ | ⟨hc, rfl⟩ | ⟨hc, rfl⟩
  · exact ⟨hc, rfl, rfl, rfl, rfl⟩
  · exact hc
  · exact hc
  · exact hc
  · exact hc
  · exact ⟨hc, rfl⟩
  · exact hc
  · exact hc
  · exact ⟨hc, rfl, rfl, fun hd => (if_pos hd).symm⟩
  · exact ⟨hc, rfl, rfl⟩

/-- By the request; only for WRITE does it matter that the request is well formed: the bytes of an absent buffer are not read. -/
theorem decode_of_carries {r : HostReq} {i : Instr} (hw : i.wellFormed = true) (h : r.carries i) : decode r = .ok i := by
  cases i with
  | destroy | rdid | getcap | rdsr | wren | wrdi =>
    have hc : r.cmd = _ := h
    simp [decode, hc]
  | init =>
    obtain ⟨hc, rfl, rfl, rfl, rfl⟩ := h
    simp [decode, hc]
  | wrsr =>
    obtain ⟨hc, rfl⟩ := h
    simp [decode, hc]
  | read =>
    obtain ⟨hc, rfl, rfl⟩ := h
    simp [decode, hc]
  | write a p d =>
    obtain ⟨hc, rfl, rfl, hd⟩ := h
    have hbytes : (if r.dpres then r.data else []) = d := by
      cases hp : r.dpres with
      | true => exact hd hp
      | false =>
        obtain rfl : d = [] := by simpa [Instr.wellFormed, hp] using hw
        rfl
    simp [decode, hc, hbytes]

theorem carries_encode (i : Instr) : (encode i).carries i := by
  cases i with
  | destroy | rdid | getcap | rdsr | wren | wrdi => exact rfl
  | init => exact ⟨rfl, rfl, rfl, rfl, rfl⟩
  | wrsr => exact ⟨rfl, rfl⟩
  | write => exact ⟨rfl, rfl, rfl, fun _ => rfl⟩
  | read => exact ⟨rfl, rfl, rfl⟩

/-- Settles O1: the encoded record carries the request. -/
theorem decodeEncodeAgree : Obligations.DecodeEncodeAgree :=
  fun i hw => decode_of_carries hw (carries_encode i)

/-- Settles O2: one direction is what a decoded request says of its record, the other is by the request. -/
theorem decodeReadsExactlyTheOperands : Obligations.DecodeReadsExactlyTheOperands :=
  fun _ _ => ⟨fun h => ⟨decode_wellFormed h, carries_of_decode h⟩, fun ⟨hw, hc⟩ => decode_of_carries hw hc⟩

/-! ### The reserved CMD values (O3, O4, O14) -/

/-- R81: each of the ten CMD values selects a request. -/
theorem exists_decode_of_assigned {r : HostReq} (h : r.cmd ∈ assignedCmds) : ∃ i, decode r = .ok i := by
  simp only [assignedCmds, List.mem_cons, List.not_mem_nil, or_false] at h
  rcases h with hc | hc | hc | hc | hc | hc | hc | hc | hc | hc <;> simp [decode, hc]

theorem decode_eq_reservedCmd_iff (r : HostReq) : decode r = .error (.reservedCmd r.cmd) ↔ r.cmd ∉ assignedCmds := by
  refine ⟨fun he hm => ?_, decode_of_cmd_reserved r⟩
  obtain ⟨i, hi⟩ := exists_decode_of_assigned hm
  cases hi.symm.trans he

/-- R86: of the 256 CMD values 246 are reserved. A closed count, evaluated by the kernel: the list is too long for the
elaborator's recursion limit. -/
theorem length_reservedCmds : ((List.range 256).filter fun n => decide (BitVec.ofNat 8 n ∉ assignedCmds)).length = 246 := by
  decide +kernel

/-- Settles O3: a record decodes where its CMD is one of the ten, and the others are counted. -/
theorem reservedCmdsAreTheOthers : Obligations.ReservedCmdsAreTheOthers :=
  ⟨decode_eq_reservedCmd_iff, length_reservedCmds, by decide, by decide⟩

/-- Settles O4: by evaluating the decoder on the twelve words. -/
theorem cmdBytesDecode : Obligations.CmdBytesDecode :=
  ⟨rfl, rfl, rfl, rfl, rfl, rfl, rfl, rfl, rfl, rfl, rfl, rfl⟩

end Sys2Proof

namespace Sys2Proof.Machine

/-- R86, R206: a reserved CMD is taken off the port and refused in the same step. -/
theorem step_of_reserved {s : State} {q : HostReq} {rest : List HostReq} (hr : s.rst = false) (hs : s.seq = .idle)
    (hh : s.host = q :: rest) (hq : q.cmd ∉ assignedCmds) : step s = .next (illegalRequest { s with host := rest }) := by
  simp [step, stepIdle, State.accept, hr, hs, hh, (decode_eq_reservedCmd_iff q).mpr hq]

/-- Settles O14: the refusal is `raise`, written out. -/
theorem reservedCmdIsIllegalRequest : Obligations.ReservedCmdIsIllegalRequest :=
  ⟨rfl, fun _ _ _ hr hs hh hq => step_of_reserved hr hs hh hq⟩

end Sys2Proof.Machine
end

section
/-! O5 (30_encoding.md R90, R91): the textual operands of a request are read back as that request. -/

namespace Sys2Proof.Asm

@[simp] theorem toUnsigned_toNat {w : Nat} (b : BitVec w) : toUnsigned w (b.toNat : Int) = some b := by
  have hr : 0 ≤ (b.toNat : Int) ∧ (b.toNat : Int) < 2 ^ w := ⟨Int.natCast_nonneg _, by exact_mod_cast b.isLt⟩
  rw [toUnsigned, if_pos hr, BitVec.ofInt_natCast, BitVec.ofNat_toNat, BitVec.setWidth_eq]

@[simp] theorem toI32_toInt (n : I32) : toI32 n.toInt = some n := by
  rw [toI32, if_pos ⟨n.le_toInt, n.toInt_lt⟩, BitVec.ofInt_toInt]

@[simp] theorem toBytes_map_toNat (d : Bytes) : toBytes (d.map fun b => (b.toNat : Int)) = some d := by
  induction d with
  | nil => rfl
  | cons b d ih =>
    simp only [toBytes] at ih
    simp [toBytes, ih]

/-- R90: a request is read back from its form. -/
theorem request_form {i : Instr} (hw : i.wellFormed = true) : request (form i).1 (form i).2 = some i := by
  cases i with
  | destroy | rdid | getcap | rdsr | wren | wrdi => rfl
  | init | wrsr | read => simp [form, request]
  | write a p d =>
    cases p with
    | true => simp [form, request]
    | false =>
      obtain rfl : d = [] := by simpa [Instr.wellFormed] using hw
      simp [form, request]

/-- Settles O5: the second clause is the expansion of R91. -/
theorem assemblerFormsReadBack : Obligations.AssemblerFormsReadBack :=
  ⟨fun _ hw => request_form hw, fun _ => rfl⟩

end Sys2Proof.Asm
end

section
/-! O9 and O44 (30_encoding.md R82, R85, R88, 60_exceptions.md R204): the length of every frame, and what every answered frame may
be. -/

namespace Sys2Proof.Machine

/-- Settles O9: by the request whose row of R85 has the frame. -/
theorem frameLengths : Obligations.FrameLengths := by
  intro p h w i c tx hw hc htx
  cases i with
  | init | destroy | getcap => cases hc
  | rdid | rdsr | wrsr | wren | wrdi => cases hc; cases htx; rfl
  | write a _ d => cases hc; cases htx; exact length_writeFrame p (Afw.code_pos hw) a d
  | read a n => cases hc; cases htx; exact length_readFrame p (Afw.code_pos hw) a n

/-! ### Answered frames (O44) -/

/-- R84: `Open` and `Close` have no frame, so nothing is asked of it. -/
theorem frameOk_of_frameless {p : Config} {c : Call} (h : c.frame = none) : c.frameOk p :=
  fun _ htx => nomatch h.symm.trans htx

/-- A step answers no call, or one whose frame is allowed. -/
def AnswersAllowed (s t : State) : Prop :=
  t.trace = s.trace ∨ ∃ c r, t.trace = s.trace ++ [⟨c, r⟩] ∧ c.frameOk s.par

theorem AnswersAllowed.traceOk {s t : State} (h : AnswersAllowed s t) (hp : t.par = s.par) (hs : s.traceOk) :
    t.traceOk := by
  intro e he
  rw [hp]
  rcases h with ht | ⟨c, r, ht, hc⟩ <;> rw [ht] at he
  · exact hs e he
  · rcases List.mem_append.mp he with he | he
    · exact hs e he
    · cases List.mem_singleton.mp he
      exact hc

theorem Closed.answersAllowed {s s' : State} (h : Closed s s') : AnswersAllowed s s' := by
  cases h with
  | absent => exact .inl rfl
  | closed => exact .inr ⟨_, _, rfl, frameOk_of_frameless rfl⟩

/-- R82, R204: a request's own frame passed its check of `FRAME_CAP`, or is one that always fits. -/
theorem Moves.answersAllowed {s t : State} {i : Instr} (h : Moves s i t) (hp : s.par.wf = true) : AnswersAllowed s t := by
  cases h with
  | stopped | noStatus | capacity | waits | closeWaits | openWaits | identWaits => exact .inl rfl
  | ends _ _ _ hw => exact .inr ⟨_, _, rfl, hw hp⟩
  | destroyed hc | released _ hc => exact hc.answersAllowed
  | openFails | opened | failClosed => exact .inr ⟨_, _, rfl, frameOk_of_frameless rfl⟩
  | identFails | identified => exact .inr ⟨_, _, rfl, idFrame_frameOk hp _⟩

theorem exec_traceOk {s t : State} {i : Instr} (h : exec i s = .next t) (hp : s.par.wf = true) (hs : s.traceOk) :
    t.traceOk := by
  obtain ⟨hpar, -, -⟩ := (exec_moves h).frame
  exact ((exec_moves h).answersAllowed hp).traceOk hpar hs

/-- Settles O44: a step that is not a request's answers no call. -/
theorem framesStayAllowed : Obligations.FramesStayAllowed := by
  intro s t hs hok h
  rcases step_cases h with ⟨-, h⟩ | ⟨-, -, -, h⟩ | ⟨-, -, q, rest, -, -, h⟩ | ⟨-, i, k, -, h⟩ | ⟨-, -, q, rest, i, -, -, h⟩
  · cases h; exact hok
  · cases h; exact hok
  · cases h; exact hok
  · exact exec_traceOk h hs.par hok
  · exact exec_traceOk h hs.par hok

end Sys2Proof.Machine
end

section
/-! O18 and O20 (40_lifecycle.md R110, R112, R113): INIT's call of `Open`, and INIT from IDLE to READY. -/

namespace Sys2Proof.Machine

/-! ### `Open` at step 1 (O18) -/

section Open
variable {i : Instr} {k : Nat} {s : State} {onErr : I32 → State → Result} {onOk : Token → State → Result} {e : Env}

theorem callOpen_silent (ha : s.env.openBus = (.silent, e)) :
    callOpen i k s onErr onOk = .next (await i k (.openBus s.cfg) { s with env := e }) := by
  simp [callOpen, ha]

theorem callOpen_err {c : I32} (ha : s.env.openBus = (.err c, e)) :
    callOpen i k s onErr onOk = onErr c (answered (.openBus s.cfg) (.failed c) { s with env := e }) := by
  simp [callOpen, ha]

theorem callOpen_ok {h : Token} (ha : s.env.openBus = (.ok h, e)) :
    callOpen i k s onErr onOk = onOk h (answered (.openBus s.cfg) (.opened h) { s with env := e }) := by
  simp [callOpen, ha]

end Open

/-- Settles O18: by the transport's answer to `Open`. -/
theorem initOpensTheTransport : Obligations.InitOpensTheTransport := by
  intro bus cs g clk s e hs
  rw [exec_init_of_one (Seq.position_of_busy hs)]
  refine ⟨fun h ha => ?_, fun c ha => ?_, fun ha => ?_⟩
  · exact callOpen_ok ha
  · exact callOpen_err ha
  · exact callOpen_silent ha

/-! ### From IDLE to READY (O20) -/

/-- INIT's steps 1 and 2 after a step 0 that leads to `s`: `Open` and the identifier read are answered, and the configuration
stays the one that is opened. -/
theorem exec_init_of_released {bus cs : U32} {g : I32} {clk : U32} {s0 s : State} {h : Token} {c : I32} {rx : Bytes}
    {e1 e2 : Env} (h0 : exec (.init bus cs g clk) s0 = .next s) (hs : s.seq = .busy (.init bus cs g clk) 1)
    (ho : s.env.openBus = (.ok h, e1)) (hx : e1.xferFull s.par [s.par.opcRdid, 0, 0, 0, 0] = (.ok (c, rx), e2))
    (hl : rx.length = 5) :
    ∃ s1 s2, exec (.init bus cs g clk) s0 = .next s1 ∧ exec (.init bus cs g clk) s1 = .next s2 ∧
      exec (.init bus cs g clk) s2 = .next { s with
        env := e2, life := .ready, id := idFromReply rx,
        afw := if 3 < (dens (idFromReply rx)).toNat then .w4 else .w3, hnd := some h,
        seq := .idle, call := none, rx := none,
        trace := s.trace ++ [⟨.openBus s.cfg, .opened h⟩, ⟨.xferFull h [s.par.opcRdid, 0, 0, 0, 0], .full c rx⟩],
        resps := s.resps ++ [{ idv := idFromReply rx }] } := by
  obtain ⟨hopen, -, -⟩ := initOpensTheTransport bus cs g clk s e1 hs
  refine ⟨s, _, h0, hopen h ho, ?_⟩
  obtain ⟨hread, -, -⟩ := (initReadsTheIdentifier bus cs g clk
    { s with env := e1, hnd := some h, seq := .busy (.init bus cs g clk) 2, call := none,
             trace := s.trace ++ [⟨.openBus s.cfg, .opened h⟩] } h e2 rfl).1 rfl
  rw [hread c rx hx hl, List.append_assoc]
  rfl

/-- Settles O20: INIT's step 0 by the token held, then the two steps after it. -/
theorem initRunsToReady : Obligations.InitRunsToReady := by
  intro bus cs g clk s h c rx e0 e1 e2 hs hclose ho hx hl cfg
  obtain ⟨hunheld, hclosed, -, -⟩ := initReleasesTheHandle bus cs g clk s (.inl hs)
  rcases hclose with ⟨hh, rfl⟩ | ⟨hh, hc⟩
  · rw [hh, List.append_nil]
    exact exec_init_of_released (hunheld hh) rfl ho hx hl
  · obtain ⟨old, hh⟩ := Option.ne_none_iff_exists'.mp hh
    rw [hh]
    exact exec_init_of_released (hclosed old e0 hh hc) rfl ho hx hl

end Sys2Proof.Machine
end

section
/-! O8, O22 and O45 (41_identify.md R130, R133, R134, 93_implementation_defined.md I8): the width that a density selects, RDID, and
the reply bytes that no request uses. -/

namespace Sys2Proof.Machine

/-! ### Width selection (O8) and RDID (O22) -/

/-- Settles O8: by the comparison of R133. -/
theorem widthIsChosenByDensity : Obligations.WidthIsChosenByDensity :=
  fun _ => ⟨fun h => if_pos h, fun h => if_neg h.not_gt⟩

/-- Settles O22: by the READY check and the transport's answer. -/
theorem rdidReadsTheIdentifier : Obligations.RdidReadsTheIdentifier := by
  intro s
  refine ⟨fun hl => needReady_unbound hl _, fun h e hl hh => ⟨fun c rx ha hn => ?_, fun c ha => ?_, fun ha => ?_⟩⟩
  · exact (execRdid_ready hl).trans (callXferFull_ok hh ha hn)
  · exact (execRdid_ready hl).trans (callXferFull_err hh ha)
  · exact (execRdid_ready hl).trans (callXferFull_silent hh ha)

/-! ### Reply bytes that no request uses (O45) -/

theorem replyByte_succ (rx : Bytes) (i : Nat) : replyByte rx (i + 1) = replyByte (rx.drop 1) i := by
  simp [replyByte]

/-- The identifier does not depend on the dummy byte of the reply (R54, I8). -/
theorem idFromReply_congr {rx rx' : Bytes} (h : rx.drop 1 = rx'.drop 1) : idFromReply rx = idFromReply rx' := by
  simp only [idFromReply, replyByte_succ, h]

/-- Two results that, where both go on, cannot be told apart by the handle's registers and the responses. -/
def SeenAlike (r r' : Result) : Prop :=
  ∀ t t', r = .next t → r' = .next t' → t.handle = t'.handle ∧ t.resps = t'.resps

theorem SeenAlike.next {t t' : State} (hh : t.handle = t'.handle) (hr : t.resps = t'.resps) :
    SeenAlike (.next t) (.next t') := by
  rintro _ _ ⟨⟩ ⟨⟩
  exact ⟨hh, hr⟩

theorem SeenAlike.fault (f : Fault) (r : Result) : SeenAlike (.fault f) r := fun _ _ h => nomatch h

/-- A full-duplex call that is answered goes on only with its success: a wrong reply length is refused (I20). -/
theorem callXferFull_next {i : Instr} {k : Nat} {tx rx : Bytes} {s t : State} {onErr onOk : I32 → State → Result}
    {h : Token} {c : I32} {e : Env} (hh : s.hnd = some h) (ha : s.env.xferFull s.par tx = (.ok (c, rx), e))
    (ht : callXferFull i k tx s onErr onOk = .next t) :
    onOk c { answered (.xferFull h tx) (.full c rx) { s with env := e } with rx := some rx } = .next t := by
  by_cases hl : rx.length = tx.length
  · rwa [callXferFull_ok hh ha hl] at ht
  · rw [callXferFull_wrongLength hh ha hl] at ht
    cases ht

section Answered
variable {s : State} {h : Token} {e0 e e' : Env} {c : I32} {tx rx rx' : Bytes}

/-- Two answers with the same code are seen alike where the request's ending sees their replies alike. -/
theorem callXferFull_seenAlike {i : Instr} {k : Nat} {onErr onOk : I32 → State → Result} (hh : s.hnd = some h)
    (ha : s.env.xferFull s.par tx = (.ok (c, rx), e)) (ha' : e0.xferFull s.par tx = (.ok (c, rx'), e'))
    (hok : SeenAlike
      (onOk c { answered (.xferFull h tx) (.full c rx) { s with env := e } with rx := some rx })
      (onOk c { answered (.xferFull h tx) (.full c rx') { s with env := e' } with rx := some rx' })) :
    SeenAlike (callXferFull i k tx s onErr onOk) (callXferFull i k tx { s with env := e0 } onErr onOk) :=
  fun t t' ht ht' => hok t t' (callXferFull_next hh ha ht)
    (callXferFull_next (s := { s with env := e0 }) hh ha' ht')

theorem execRdid_seenAlike (hl : s.life = .ready) (hh : s.hnd = some h)
    (ha : s.env.xferFull s.par (idFrame s.par) = (.ok (c, rx), e))
    (ha' : e0.xferFull s.par (idFrame s.par) = (.ok (c, rx'), e')) (hrx : rx.drop 1 = rx'.drop 1) :
    SeenAlike (execRdid s) (execRdid { s with env := e0 }) := by
  have hid : idFromReply rx = idFromReply rx' := idFromReply_congr hrx
  rw [execRdid_ready hl, execRdid_ready (s := { s with env := e0 }) hl]
  refine callXferFull_seenAlike hh ha ha' (.next ?_ ?_) <;> simp [State.handle, hid]

theorem execRdsr_seenAlike (hl : s.life = .ready) (hh : s.hnd = some h)
    (ha : s.env.xferFull s.par (rdsrFrame s.par) = (.ok (c, rx), e))
    (ha' : e0.xferFull s.par (rdsrFrame s.par) = (.ok (c, rx'), e')) (hrx : rx.drop 1 = rx'.drop 1) :
    SeenAlike (execRdsr s) (execRdsr { s with env := e0 }) := by
  have hsr : replyByte rx 1 = replyByte rx' 1 := by rw [replyByte_succ, hrx, ← replyByte_succ]
  rw [execRdsr_ready hl, execRdsr_ready (s := { s with env := e0 }) hl]
  refine callXferFull_seenAlike hh ha ha' (.next rfl ?_)
  simp [hsr]

/-- The checks of READ read no part of the environment, so the two runs pass or fail them alike (R208). -/
theorem execRead_seenAlike {a : U32} {n : I32} (hl : s.life = .ready) (hh : s.hnd = some h)
    (ha : s.env.xferFull s.par (readFrame s.par s.afw.code a n) = (.ok (c, rx), e))
    (ha' : e0.xferFull s.par (readFrame s.par s.afw.code a n) = (.ok (c, rx'), e'))
    (hrx : rx.drop s.afw.code = rx'.drop s.afw.code) :
    SeenAlike (execRead a n s) (execRead a n { s with env := e0 }) := by
  have hpay : payload rx s.afw.code (readCount n) = payload rx' s.afw.code (readCount n) := by rw [payload, hrx, payload]
  rw [execRead, execRead, needReady_ready hl, needReady_ready (s := { s with env := e0 }) hl]
  by_cases hn : n.toInt ≤ 0
  · rw [if_pos hn, if_pos hn]
    exact .next rfl rfl
  rw [if_neg hn, if_neg hn]
  by_cases hw : s.afw = .unset
  · rw [withWidth_unset hw]
    exact .fault _ _
  rw [withWidth_set hw, withWidth_set (s := { s with env := e0 }) hw]
  by_cases hf : s.par.fits (s.afw.code + readCount n) = true
  · rw [needRoom_fits hf, needRoom_fits (s := { s with env := e0 }) hf]
    refine callXferFull_seenAlike hh ha ha' (.next rfl ?_)
    simp [hpay]
  · rw [needRoom, needRoom, if_neg hf, if_neg hf]
    exact .next rfl rfl

end Answered

/-- Settles O45: RDID, RDSR and READ are the requests with a full-duplex call, and none uses the bytes in which the replies
differ. -/
theorem unusedReplyBytesAreIgnored : Obligations.UnusedReplyBytesAreIgnored := by
  intro s s' t t' e e' c rx rx' h i tx hl hh hc hs' ha ha' hread hother ht ht'
  obtain ⟨e0, rfl⟩ : ∃ e0, s' = { s with env := e0 } := ⟨_, hs'⟩
  have hseen : SeenAlike (exec i s) (exec i { s with env := e0 }) := by
    cases i with
    | init | destroy | getcap | wrsr | wren | wrdi | write => cases hc
    | rdid => cases hc; exact execRdid_seenAlike hl hh ha ha' (hother nofun)
    | rdsr => cases hc; exact execRdsr_seenAlike hl hh ha ha' (hother nofun)
    | read a n => cases hc; exact execRead_seenAlike hl hh ha ha' (hread a n rfl)
  exact hseen t t' ht ht'

end Sys2Proof.Machine
end

section
/-! O25, O26, O27, O28 and O33 (42_status_latch.md R140 to R145): RDSR, and the three requests that only send their frame. -/

namespace Sys2Proof.Machine

/-! ### RDSR (O25, O33) -/

/-- Settles O25: by the state of the handle and the transport's answer. -/
theorem rdsrReadsTheStatus : Obligations.RdsrReadsTheStatus := by
  intro s
  refine ⟨fun hl => execRdsr_unbound hl, fun h e hl hh => ⟨fun c b0 b1 ha => ?_, fun c ha => ?_, fun ha => ?_⟩⟩
  · exact (execRdsr_ready hl).trans (callXferFull_ok hh ha rfl)
  · exact (execRdsr_ready hl).trans (callXferFull_err hh ha)
  · exact (execRdsr_ready hl).trans (callXferFull_silent hh ha)

/-- R141: no check of R208 stops RDSR, which answers the sentinel on a handle that is not READY. -/
theorem Stops.ne_rdsr {s : State} {i : Instr} {e : Err} (h : Stops s i e) : i ≠ .rdsr := by
  cases h with
  | handle _ hi =>
    rcases hi with rfl | ⟨_, _, hne, _⟩
    · nofun
    · exact hne
  | noBuffer | noLength | writeRoom | readRoom => nofun

/-- R141: the answer to RDSR's call ends it with no error, and a failure with the sentinel. -/
theorem Ends.rdsr_response {s : State} {rp : Reply} {id : U32} {r : Response} (h : Ends s .rdsr rp id r) :
    r.err = .ok ∧ r.xcode = 0 ∧ ∀ c, rp = .failed c → r.sr = srSentinel := by
  cases h with
  | error hi => exact absurd rfl hi
  | sentinel => exact ⟨rfl, rfl, fun _ _ => rfl⟩
  | status => exact ⟨rfl, rfl, nofun⟩
  | plain hi => simp at hi

/-- Settles O33: RDSR is at IDLE again only where no handle was READY or its call was answered. -/
theorem rdsrNeverReportsAnError : Obligations.RdsrNeverReportsAnError := by
  intro s t h hidle
  cases exec_moves h with
  | stopped hs => exact absurd rfl hs.ne_rdsr
  | noStatus => exact ⟨_, rfl, rfl, rfl, fun _ _ _ => rfl⟩
  | waits => cases hidle
  | closeWaits hc => cases hc
  | ends _ _ _ _ _ he =>
    obtain ⟨herr, hx, hsr⟩ := he.rdsr_response
    refine ⟨_, rfl, herr, hx, fun call c ht => hsr c ?_⟩
    obtain ⟨-, hrp⟩ : _ ∧ _ = Reply.failed c := by simpa using ht
    exact hrp

/-! ### The requests that only send their frame (O26, O27, O28) -/

/-- What a request does whose whole pseudocode is the READY check and one `Xfer` with its count discarded: WRSR, WREN and WRDI
(R142, R144, R145). -/
theorem exec_of_sendOnly {i : Instr} {tx : Bytes} {s : State}
    (hx : exec i s = needReady s (callXfer i 0 tx s transferError fun _ s => .next (respond {} s))) :
    (s.life = .unbound → exec i s = .next (raise .invalidHandle 0 s)) ∧
    ∀ (h : Token) (e : Env), s.life = .ready → s.hnd = some h →
      (∀ n, s.env.xfer s.par tx = (.ok n, e) →
        exec i s = .next (respond {} (answered (.xfer h tx) (.count n) { s with env := e }))) ∧
      (∀ c, s.env.xfer s.par tx = (.err c, e) →
        exec i s = .next (raise .transferError c (answered (.xfer h tx) (.failed c) { s with env := e }))) ∧
      (s.env.xfer s.par tx = (.silent, e) → exec i s = .next (await i 0 (.xfer h tx) { s with env := e })) := by
  refine ⟨fun hl => hx.trans (needReady_unbound hl _), fun h e hl hh => ?_⟩
  rw [hx, needReady_ready hl]
  exact ⟨fun n ha => callXfer_ok hh ha, fun c ha => callXfer_err hh ha, fun ha => callXfer_silent hh ha⟩

/-- Settles O26: WRSR only sends its op-code and its value. -/
theorem wrsrSendsTheValue : Obligations.WrsrSendsTheValue :=
  fun _ _ => exec_of_sendOnly rfl

/-- Settles O27: WREN only sends its op-code. -/
theorem wrenSendsItsOpcode : Obligations.WrenSendsItsOpcode :=
  fun _ => exec_of_sendOnly rfl

/-- Settles O28: WRDI only sends its op-code. -/
theorem wrdiSendsItsOpcode : Obligations.WrdiSendsItsOpcode :=
  fun _ => exec_of_sendOnly rfl

end Sys2Proof.Machine
end

section
/-! O29, O30 and O32 (43_data.md R160, R161, R164): WRITE and READ, check by check in the order of R208, and the requests that
InvalidArgument ends with no call. -/

namespace Sys2Proof.Machine

/-! ### Where a check stops WRITE and READ -/

theorem needRoom_full {n : Nat} {s : State} (h : s.par.fits n = false) (k : Result) :
    needRoom n s k = .next (raise .allocationFailure 0 s) := by
  simp [needRoom, h]

section Checks
variable {a : U32} {s : State}

/-- R160: an absent buffer and an empty one end WRITE alike. -/
theorem execWrite_noData {p : Bool} {d : Bytes} (hl : s.life = .ready) (hd : p = false ∨ d = []) :
    execWrite a p d s = .next (raise .invalidArgument 0 s) := by
  rw [execWrite, needReady_ready hl]
  by_cases hp : p = false
  · rw [if_pos hp]
  · rw [if_neg hp, if_pos (hd.resolve_left hp)]

theorem execWrite_noRoom {d : Bytes} (hl : s.life = .ready) (hd : d ≠ []) (ha : s.afw ≠ .unset)
    (hf : s.par.fits (s.afw.code + d.length) = false) :
    execWrite a true d s = .next (raise .allocationFailure 0 s) := by
  rw [execWrite, needReady_ready hl, if_neg (by decide), if_neg hd, withWidth_set ha, needRoom_full hf]

theorem execRead_noLength {n : I32} (hl : s.life = .ready) (hn : n.toInt ≤ 0) :
    execRead a n s = .next (raise .invalidArgument 0 s) := by
  rw [execRead, needReady_ready hl, if_pos hn]

theorem execRead_noRoom {n : I32} (hl : s.life = .ready) (hn : 0 < n.toInt) (ha : s.afw ≠ .unset)
    (hf : s.par.fits (s.afw.code + readCount n) = false) :
    execRead a n s = .next (raise .allocationFailure 0 s) := by
  rw [execRead, needReady_ready hl, if_neg hn.not_ge, withWidth_set ha, needRoom_full hf]

end Checks

/-! ### WRITE (O29) and READ (O30) -/

/-- Settles O29: by the check that stops WRITE, then by the transport's answer. -/
theorem writeSendsTheData : Obligations.WriteSendsTheData := by
  intro a p d s
  refine ⟨fun hl => needReady_unbound hl _, fun hl hd => execWrite_noData hl hd, fun hl hp hd ha hf => ?_,
    fun h e hl hp hd ha hf hh => ?_⟩
  · subst hp
    exact execWrite_noRoom hl hd ha hf
  · have hsend := execWrite_sends (a := a) hl ⟨hp, hd, ha, hf⟩
    exact ⟨fun n hx => hsend.trans (callXfer_ok hh hx), fun c hx => hsend.trans (callXfer_err hh hx),
      fun hx => hsend.trans (callXfer_silent hh hx)⟩

/-- R56: the payload of a reply is what follows a header of `w` bytes. -/
theorem payload_append {head data : Bytes} {w n : Nat} (hh : head.length = w) (hd : data.length = n) :
    payload (head ++ data) w n = data := by
  rw [payload, List.drop_left' hh, List.take_of_length_le hd.le]

/-- Settles O30: by the check that stops READ, then by the transport's answer, whose payload is cut from the reply. -/
theorem readReturnsThePayload : Obligations.ReadReturnsThePayload := by
  intro a n s
  refine ⟨fun hl => needReady_unbound hl _, fun hl hn => execRead_noLength hl hn,
    fun hl hn ha hf => execRead_noRoom hl hn ha hf, fun h e hl hn ha hf hh => ?_⟩
  have hsend := execRead_sends (a := a) hl ⟨hn, ha, hf⟩
  refine ⟨fun c head data hx hhead hdata => ?_, fun c hx => hsend.trans (callXferFull_err hh hx),
    fun hx => hsend.trans (callXferFull_silent hh hx)⟩
  have hlen : (head ++ data).length = (readFrame s.par s.afw.code a n).length := by
    rw [length_readFrame _ (Afw.code_pos ha), List.length_append, hhead, hdata, readCount]
  have hpay : payload (head ++ data) s.afw.code (readCount n) = data := payload_append hhead hdata
  refine (hsend.trans (callXferFull_ok hh hx hlen)).trans ?_
  rw [reply_of_rx _ _ rfl, hpay]
  rfl

/-! ### InvalidArgument (O32) -/

theorem Ends.err_ne_invalidArgument {s : State} {i : Instr} {rp : Reply} {id : U32} {r : Response} (h : Ends s i rp id r) :
    r.err ≠ .invalidArgument := by
  rcases h.err_cases with ⟨he, -⟩ | ⟨he, -⟩ <;> rw [he] <;> nofun

/-- R164: only a check answers InvalidArgument, and a check leaves all but the response as it was. -/
theorem Moves.eq_raise_of_invalidArgument {s t : State} {i : Instr} {r : Response} (h : Moves s i t)
    (hr : t.resps = s.resps ++ [r]) (he : r.err = .invalidArgument) : t = raise .invalidArgument 0 s := by
  have err_of : ∀ r', t.resps = s.resps ++ [r'] → r'.err = .invalidArgument := fun r' hr' => by
    obtain rfl : r' = r := by simpa using hr'.symm.trans hr
    exact he
  cases h with
  | stopped =>
    cases err_of _ rfl
    rfl
  | ends _ _ _ _ _ hends => exact absurd (err_of _ rfl) hends.err_ne_invalidArgument
  | noStatus | capacity | openFails | failClosed | identified => cases err_of _ rfl
  | destroyed hc => cases err_of {} (by simp [hc.resps])
  | released _ hc => simp [hc.resps] at hr
  | waits | closeWaits | openWaits | opened | identWaits | identFails => simp at hr

/-- Settles O32: the state after InvalidArgument is `raise` of it, whatever check found it. -/
theorem emptyTransfersInvokeNoTransport : Obligations.EmptyTransfersInvokeNoTransport := by
  refine ⟨fun s t i r h hr he => ?_, fun s a i hl hi => ?_⟩
  · rw [(exec_moves h).eq_raise_of_invalidArgument hr he]
    exact ⟨rfl, rfl, rfl⟩
  · have hx : exec i s = .next (raise .invalidArgument 0 s) := by
      rcases hi with rfl | rfl
      · exact execWrite_noData hl (.inr rfl)
      · exact execRead_noLength hl le_rfl
    exact ⟨_, hx, rfl, rfl, rfl, rfl⟩

end Sys2Proof.Machine
end

section
/-! O23 and O24 (44_capacity.md R180, R181): GETCAP, and the table of capacities. -/

namespace Sys2Proof.Machine

/-- R180: `(1 << DENS) * 1024` as a power of two. -/
theorem capacity_eq_two_pow (d : Byte) : capacity d = 2 ^ (d.toNat + 10) :=
  (pow_add 2 d.toNat 10).symm

theorem execGetcap_fits {s : State} (hl : s.life = .ready) (hc : capacity (dens s.id) < 2 ^ s.par.capBits) :
    execGetcap s = .next (respond { capv := capacity (dens s.id) } s) := by
  rw [execGetcap, needReady_ready hl, if_pos hc]

/-- I5: the answer is a free value, cut to `CAP_BITS` bits. -/
theorem execGetcap_overflows {s : State} (hl : s.life = .ready) (hc : 2 ^ s.par.capBits ≤ capacity (dens s.id)) :
    execGetcap s =
      .next (respond { capv := Config.drawCapacity s.free % 2 ^ s.par.capBits } { s with free := s.free + 1 }) := by
  rw [execGetcap, needReady_ready hl, if_neg hc.not_gt]

/-- Settles O23: by the READY check, then by whether the capacity fits in `CAP_BITS` bits. -/
theorem getcapComputesTheCapacity : Obligations.GetcapComputesTheCapacity := by
  intro s
  rw [← capacity_eq_two_pow]
  exact ⟨fun hl => needReady_unbound hl _, fun hl hc => execGetcap_fits hl hc,
    fun hl hc => ⟨_, _, Nat.mod_lt _ (Nat.two_pow_pos _), execGetcap_overflows hl hc⟩⟩

/-- Settles O24: by evaluating the capacity and the width on the eleven densities. -/
theorem capacityTable : Obligations.CapacityTable := by
  unfold Obligations.CapacityTable
  decide

end Sys2Proof.Machine
end

section
/-! O34 and O37 (60_exceptions.md R200, R207): the error codes, and what an error leaves of the handle's registers. -/

namespace Sys2Proof.Machine

/-! ### The error codes (O34) -/

theorem Err.code_toNat_le (e : Err) : e.code.toNat ≤ 6 := by
  cases e <;> decide

/-- Settles O34: each code is that of the error's row in R200, and the greatest is 6. -/
theorem errorCodesAreTheTable : Obligations.ErrorCodesAreTheTable :=
  ⟨rfl, rfl, rfl, rfl, rfl, rfl, rfl, Err.code_toNat_le⟩

/-! ### The registers after an error (O37) -/

/-- R205: no check answers InitializationFailure. -/
theorem Stops.err_ne_initializationFailure {s : State} {i : Instr} {e : Err} (h : Stops s i e) :
    e ≠ .initializationFailure := by
  cases h <;> nofun

/-- R203: an answered call ends a request in error only as a TransferError, which leaves `ID`. -/
theorem Ends.transferError_of_err {s : State} {i : Instr} {rp : Reply} {id : U32} {r : Response} (h : Ends s i rp id r)
    (he : r.err ≠ .ok) : r.err = .transferError ∧ id = s.id := by
  cases h with
  | error => exact ⟨rfl, rfl⟩
  | sentinel | status | plain | written | ident | data => exact absurd rfl he

/-- R207: what a request that answers with an error makes of the handle's registers. -/
theorem Moves.handle_of_err {s t : State} {i : Instr} {r : Response} (h : Moves s i t)
    (hr : t.resps = s.resps ++ [r]) (he : r.err ≠ .ok) :
    t.handle = if r.err = .initializationFailure then Handle.empty else s.handle := by
  have eq_of : ∀ r', t.resps = s.resps ++ [r'] → r' = r := fun r' hr' => by simpa using hr'.symm.trans hr
  cases h with
  | stopped hs =>
    obtain rfl := eq_of _ rfl
    exact (if_neg hs.err_ne_initializationFailure).symm
  | ends _ _ _ _ _ hends =>
    obtain rfl := eq_of _ rfl
    obtain ⟨hte, rfl⟩ := hends.transferError_of_err he
    exact (if_neg (by rw [hte]; nofun)).symm
  | openFails | failClosed =>
    obtain rfl := eq_of _ rfl
    exact (if_pos rfl).symm
  | noStatus | capacity | identified =>
    obtain rfl := eq_of _ rfl
    exact absurd rfl he
  | destroyed hc =>
    obtain rfl := eq_of {} (by simp [hc.resps])
    exact absurd rfl he
  | released _ hc => simp [hc.resps] at hr
  | waits | closeWaits | openWaits | opened | identWaits | identFails => simp at hr

/-- Settles O37: the registers after each way a request can end in error. -/
theorem errorsLeaveTheRegisters : Obligations.ErrorsLeaveTheRegisters :=
  fun _ _ _ _ h hr he => (exec_moves h).handle_of_err hr he

end Sys2Proof.Machine
end

section
/-! O13 and O16 (70_reset_and_hazards.md R231, R232): the step with no request to run, and a reset with a call in flight. -/

namespace Sys2Proof.Machine

/-- R231: with nothing on the host port an idle machine stays as it is. -/
theorem step_of_noRequest {s : State} (hr : s.rst = false) (hs : s.seq = .idle) (hh : s.host = []) :
    step s = .next s := by
  simp [step, stepIdle, State.accept, hr, hs, hh]

/-- Settles O13: no request can be accepted from an empty host port. -/
theorem idleWithoutRequestWaits : Obligations.IdleWithoutRequestWaits :=
  fun _ hr hs hh => step_of_noRequest hr hs hh

/-- R232: a reset with a call in flight leaves the transport to answer by free draws. -/
theorem resetNow_link_of_inFlight {s : State} {c : Call} (hc : s.call = some c) : s.resetNow.env.link = .draws := by
  simp [hc, Env.afterReset]

/-- Settles O16: a reset step is `resetNow`, whichever request and call it abandons. -/
theorem resetAbandonsTheRequest : Obligations.ResetAbandonsTheRequest :=
  fun s _ _ _ hr _ hc => ⟨s.resetNow, step_of_rst hr, resetNow_seq s, resetNow_resps s, resetNow_trace s,
    resetNow_call s, resetNow_handle s, resetNow_link_of_inFlight hc⟩

end Sys2Proof.Machine
end
